-- ==== Sys2Proof/Word.lean ====
section
/-! DEFINITION. The word types of the probe: what the spec gives a width (rules R9, R28, R61). -/

namespace Sys2Proof

/-- One byte of the byte channel or of target memory data. -/
abbrev Byte := BitVec 8

/-- The 16-bit payload of a TransferWord: an opcode word, a data word or an address word (R9, R90). -/
abbrev Word := BitVec 16

/-- A target memory address: 32 bits, a byte address (R61). -/
abbrev Addr := BitVec 32

/-- The Link Driver's accumulator `ACC`: 17 bits (R28). -/
abbrev Acc := BitVec 17

/-- A line level: `true` is level 1, "high"; `false` is level 0, "low" (R21). -/
abbrev Level := Bool

end Sys2Proof
end

