-- ==== Sys2Proof/Config.lean ====
section
/-! DEFINITION. The signal lines, the named delays and the closed event alphabet (R8, R11, R21), and the
configuration of the probe: what an implementation fixes for the whole run (R10 to R12, R35), with the free values
(constants without a body) that stand wherever the spec gives no value. -/

namespace Sys2Proof

/-- The three output lines (R21 to R25). -/
inductive OutLine where
  /-- `DOUT`, data-out-to-target (R23). -/
  | dout
  /-- `CLK`, clock; low is also the halt request (R24). -/
  | clk
  /-- `RST_N`, reset, active low (R25). -/
  | rstN
deriving DecidableEq, Repr

/-- The two input lines (R26, R27). -/
inductive InLine where
  /-- `DIN`, data-in-from-target (R26). -/
  | din
  /-- `FRZ`, freeze-sense, high = halted (R27). -/
  | frz
deriving DecidableEq, Repr

/-- The six named delays (R11). A `wait` event carries the name; nothing computes with the duration. -/
inductive Delay where
  | qBit | tDbgAssert | tDbgRelease | tStopSettle | tRstLow | tRstHigh
deriving DecidableEq, Repr

/-- The closed event alphabet (R8). -/
inductive Event where
  /-- `drive(P, b)`: output line `P` is driven to level `b`. -/
  | drive (p : OutLine) (b : Level)
  /-- `wait(D)`: the sequencer does nothing for the named delay. -/
  | wait (d : Delay)
  /-- `b <- sample(P)`: input line `P` is read and yields `b`. -/
  | sample (p : InLine) (b : Level)
  /-- `rx(c)`: one byte is taken from the byte channel. -/
  | rx (c : Byte)
  /-- `tx(s)`: a byte string is put on the byte channel. -/
  | tx (s : List Byte)
deriving DecidableEq, Repr

/-- The configuration record, fixed for the whole run (R10, R11, R35). -/
structure Config where
  /-- `READ_BASE`. -/
  readBase : Word
  /-- `WRITE_BASE`. -/
  writeBase : Word
  /-- `GO_OPCODE`. -/
  goOpcode : Word
  /-- `ARM_READ_OPCODE`. -/
  armReadOpcode : Word
  /-- `ARM_WRITE_OPCODE`. -/
  armWriteOpcode : Word
  /-- `Q_BIT`. -/
  qBit : Nat
  /-- `T_DBG_ASSERT`. -/
  tDbgAssert : Nat
  /-- `T_DBG_RELEASE`. -/
  tDbgRelease : Nat
  /-- `T_STOP_SETTLE`. -/
  tStopSettle : Nat
  /-- `T_RST_LOW`. -/
  tRstLow : Nat
  /-- `T_RST_HIGH`. -/
  tRstHigh : Nat
  /-- Which of the bytes that R101 leaves open (`93_implementation_defined.md` U9) split tokens in this build. -/
  extraSpace : List Byte
deriving DecidableEq, Repr

/-- The duration the configuration gives a named delay (R11). -/
def Config.delay (cfg : Config) : Delay → Nat
  | .qBit => cfg.qBit
  | .tDbgAssert => cfg.tDbgAssert
  | .tDbgRelease => cfg.tDbgRelease
  | .tStopSettle => cfg.tStopSettle
  | .tRstLow => cfg.tRstLow
  | .tRstHigh => cfg.tRstHigh

/-- A well-formed configuration: the two register bases have zero operand bits (R10) and the six durations are
positive (R11). -/
abbrev Config.wf (cfg : Config) : Prop :=
  cfg.readBase &&& 0x003F#16 = 0#16 ∧ cfg.writeBase &&& 0x003F#16 = 0#16 ∧
  0 < cfg.qBit ∧ 0 < cfg.tDbgAssert ∧ 0 < cfg.tDbgRelease ∧
  0 < cfg.tStopSettle ∧ 0 < cfg.tRstLow ∧ 0 < cfg.tRstHigh

/-- The five opcode constants are told apart by the masks of R113. The document does not promise this (R10, R98); only
the decoding of a wire word needs it, and a statement that does says so. -/
abbrev Config.opcodesDistinct (cfg : Config) : Prop :=
  cfg.readBase ≠ cfg.writeBase ∧
  cfg.armReadOpcode &&& 0xFFC0#16 ≠ cfg.readBase ∧ cfg.armReadOpcode &&& 0xFFC0#16 ≠ cfg.writeBase ∧
  cfg.armWriteOpcode &&& 0xFFC0#16 ≠ cfg.readBase ∧ cfg.armWriteOpcode &&& 0xFFC0#16 ≠ cfg.writeBase ∧
  cfg.goOpcode &&& 0xFFC0#16 ≠ cfg.readBase ∧ cfg.goOpcode &&& 0xFFC0#16 ≠ cfg.writeBase ∧
  cfg.armReadOpcode ≠ cfg.armWriteOpcode ∧ cfg.armReadOpcode ≠ cfg.goOpcode ∧
  cfg.armWriteOpcode ≠ cfg.goOpcode

/-! ### Free values: constants without a body -/

/-- Bits 15 to 6 of `READ_BASE` (R10, N1). -/
opaque Config.readSelector : BitVec 10

/-- Bits 15 to 6 of `WRITE_BASE` (R10, N1). -/
opaque Config.writeSelector : BitVec 10

/-- `GO_OPCODE`, not given by the document (N1). -/
opaque Config.goWord : Word

/-- `ARM_READ_OPCODE`, not given by the document (N1). -/
opaque Config.armReadWord : Word

/-- `ARM_WRITE_OPCODE`, not given by the document (N1). -/
opaque Config.armWriteWord : Word

/-- The duration of each delay less one; the duration itself is positive (R11, N2). -/
opaque Config.delayLessOne : Delay → Nat

/-- The open bytes that split tokens in this build (R101, U9). -/
opaque Config.openSpace : List Byte

/-- The level of `DOUT` from power-up to the first exchange: one draw (R300, U3). -/
opaque Config.doutAtPowerUp : Level

/-- What the target answers a sample, given the whole trace before the sample and the line (R27, R134, U4): used
where the state's own list of answers has run out. Equal traces give equal answers, also after a power-cycle: log entry
25. -/
opaque Config.targetAnswer : List Event → InLine → Level

/-- A text the spec leaves open (`<message>` of R225, the printed form of a wide `<val-hex>` of R105), given the whole
trace before it is needed: used where the state's own list of texts has run out. Equal traces give equal texts, also after a
power-cycle: log entry 25. -/
opaque Config.openText : List Event → List Byte

/-- The configuration of the build that `State.reset` describes: free values only, shaped so that it is well formed. -/
def Config.build : Config where
  readBase := Config.readSelector ++ 0#6
  writeBase := Config.writeSelector ++ 0#6
  goOpcode := Config.goWord
  armReadOpcode := Config.armReadWord
  armWriteOpcode := Config.armWriteWord
  qBit := Config.delayLessOne .qBit + 1
  tDbgAssert := Config.delayLessOne .tDbgAssert + 1
  tDbgRelease := Config.delayLessOne .tDbgRelease + 1
  tStopSettle := Config.delayLessOne .tStopSettle + 1
  tRstLow := Config.delayLessOne .tRstLow + 1
  tRstHigh := Config.delayLessOne .tRstHigh + 1
  extraSpace := Config.openSpace

end Sys2Proof
end

