-- ==== Sys2Proof/Syntax.lean ====
section
/-! DEFINITION. The instructions of the probe: one constructor for each row of `opcode_table.json` (R113). -/

namespace Sys2Proof

/-- One constructor per row of the table, in the table's order: the five opcode words the probe puts on the wire, each
with the operand word its frame sends next (R97); the nine command rows of the command port (R214); the ten operations
(R131 to R192). -/
inductive Instr where
  -- WIRE16 rows: frames of R97
  /-- `REG_READ`: frame REG_READ, opcode word `READ_BASE | idx`. -/
  | regRead (idx : BitVec 6)
  /-- `REG_WRITE`: frame REG_WRITE, opcode word `WRITE_BASE | idx`, then the data word. -/
  | regWrite (idx : BitVec 6) (value : Word)
  /-- `GO`: frame GO, the fixed word `GO_OPCODE`. -/
  | go
  /-- `ARM_READ`: frame MEM_READ_STEP, the fixed word `ARM_READ_OPCODE`, then the address word. -/
  | armRead (addrWord : Word)
  /-- `ARM_WRITE`: frame MEM_WRITE_STEP, the fixed word `ARM_WRITE_OPCODE`, then the data word. -/
  | armWrite (dataWord : Word)
  -- CMD rows: request lines of R214
  /-- `CMD_RESET`: verb `RESET`. -/
  | cmdReset
  /-- `CMD_STOP`: verb `STOP`. -/
  | cmdStop
  /-- `CMD_GO`: verb `GO`. -/
  | cmdGo
  /-- `CMD_STATUS`: verb `STATUS`. -/
  | cmdStatus
  /-- `CMD_READ_REG`: verb `READ_REG` with exactly 2 tokens; the argument token as typed. -/
  | cmdReadReg (reg : List Byte)
  /-- `CMD_WRITE_REG`: verb `WRITE_REG` with exactly 3 tokens; the argument tokens as typed. -/
  | cmdWriteReg (reg val : List Byte)
  /-- `CMD_UNKNOWN`: any other line with at least one token. -/
  | cmdUnknown
  /-- `CMD_EMPTY`: the line of zero bytes. -/
  | cmdEmpty
  /-- `CMD_BLANK`: a line of one or more whitespace bytes and nothing else. -/
  | cmdBlank
  -- OP rows: the ten operations
  /-- `transferWord(outgoing)` (R131); `outgoing` is any non-negative integer. -/
  | transferWord (outgoing : Nat)
  /-- `enterDebugMode()` (R151). -/
  | enterDebugMode
  /-- `isHalted()` (R154). -/
  | isHalted
  /-- `stop()` (R155). -/
  | stop
  /-- `reset()` (R158). -/
  | reset
  /-- `resume()` (R160). -/
  | resume
  /-- `readRegister(index)` (R181); any non-negative integer is accepted. -/
  | readRegister (index : Nat)
  /-- `writeRegister(index, value)` (R184); any non-negative integers are accepted (R185). -/
  | writeRegister (index value : Nat)
  /-- `readMemory(address, length)` (R188). -/
  | readMemory (address : Addr) (length : Nat)
  /-- `writeMemory(address, data)` (R192). -/
  | writeMemory (address : Addr) (data : List Byte)
deriving DecidableEq, Repr

end Sys2Proof
end

