-- ==== Sys2Proof/Decode.lean ====
section
/-! DEFINITION. The encodings of `30_encoding.md`: request lines on the byte channel (R100 to R105), opcode words and
their frames on the link (R93 to R97), direct requests, which have no bits (R232). The decoder first, total and rejecting
by name; then the encoder, from the same tables. -/

namespace Sys2Proof

/-! ### Bytes of the byte channel -/

/-- ASCII text as bytes of the channel. -/
def ascii (s : String) : List Byte := s.toList.map fun c => BitVec.ofNat 8 c.toNat

/-- A request terminator: LF or CR (R100). -/
def isTerminator (b : Byte) : Bool := b == 0x0A#8 || b == 0x0D#8

/-- The bytes of which R101 leaves open whether they split tokens (U9): VT, FF, 0x1C to 0x1F, and those above 0x7F. -/
def isOpenSpace (b : Byte) : Bool :=
  b == 0x0B#8 || b == 0x0C#8 || (decide (0x1C ≤ b.toNat) && decide (b.toNat ≤ 0x1F)) || decide (0x80 ≤ b.toNat)

/-- Whitespace: space and horizontal tab (R101), and those of the open bytes that this build splits at.
DESIGN CHOICE: log entry 9. -/
def isSpace (cfg : Config) (b : Byte) : Bool :=
  b == 0x20#8 || b == 0x09#8 || (isOpenSpace b && cfg.extraSpace.contains b)

/-- ASCII `a` to `z` to `A` to `Z`, every other byte unchanged (R102). -/
def upperByte (b : Byte) : Byte :=
  if 0x61 ≤ b.toNat ∧ b.toNat ≤ 0x7A then b - 0x20#8 else b

/-- The verb as it is compared: its bytes case-folded (R102). -/
def upper (t : List Byte) : List Byte := t.map upperByte

/-- Put the token collected so far, if any, before the tokens of the rest. -/
def consToken (t : List Byte) (ts : List (List Byte)) : List (List Byte) :=
  if t = [] then ts else t :: ts

/-- `tokensFrom space cur line`: the tokens of `line` when `cur` is the run of non-whitespace bytes just before it. -/
def tokensFrom (space : Byte → Bool) : List Byte → List Byte → List (List Byte)
  | cur, [] => consToken cur []
  | cur, b :: rest =>
    if space b then consToken cur (tokensFrom space [] rest) else tokensFrom space (cur ++ [b]) rest

/-- The tokens of a line: the maximal runs of non-whitespace bytes, in order (R101). -/
def tokens (cfg : Config) (line : List Byte) : List (List Byte) := tokensFrom (isSpace cfg) [] line

/-! ### Decoding a request line (R100 to R103, R109, R214) -/

/-- The command a verb and its arguments name: the verb case-folded, the arity checked for `READ_REG` and `WRITE_REG`
only, before any argument is looked at (R102, R103, R269). DESIGN CHOICE: log entry 10. -/
def decodeVerb (verb : List Byte) (args : List (List Byte)) : Instr :=
  if upper verb = ascii "RESET" then .cmdReset
  else if upper verb = ascii "STOP" then .cmdStop
  else if upper verb = ascii "GO" then .cmdGo
  else if upper verb = ascii "STATUS" then .cmdStatus
  else if upper verb = ascii "READ_REG" then
    match args with
    | [reg] => .cmdReadReg reg
    | _ => .cmdUnknown
  else if upper verb = ascii "WRITE_REG" then
    match args with
    | [reg, val] => .cmdWriteReg reg val
    | _ => .cmdUnknown
  else .cmdUnknown

/-- The command a line (without its terminator) names; every line names one (R109). -/
def decodeLine (cfg : Config) (line : List Byte) : Instr :=
  if line = [] then .cmdEmpty
  else
    match tokens cfg line with
    | [] => .cmdBlank
    | verb :: args => decodeVerb verb args

/-- Why bytes, words or a whole code are no instruction. -/
inductive DecodeError where
  /-- The bytes hold no terminator: the request is not complete (R100). -/
  | unterminatedLine
  /-- There is no word at all. -/
  | noWord
  /-- The first word is none of the opcode words the probe can send (R98). -/
  | notAnOpcodeWord (w : Word)
  /-- The frame of this opcode word has a second word (R97), and it is not there. -/
  | missingOperandWord (w : Word)
  /-- Something is left over after the one instruction asked for. -/
  | surplus
deriving DecidableEq, Repr

/-- One request off the front of a byte stream: the bytes up to the first terminator are the line (R100). -/
def decodeRequest (cfg : Config) (bytes : List Byte) : Except DecodeError (Instr × List Byte) :=
  match bytes.dropWhile (fun b => !isTerminator b) with
  | [] => .error .unterminatedLine
  | _ :: rest => .ok (decodeLine cfg (bytes.takeWhile fun b => !isTerminator b), rest)

/-! ### Decoding an opcode word and its frame (R93 to R98, R113) -/

/-- Bits 15 to 6 of an opcode word, in place: the selector of R93, the mask of R113. -/
def selector (w : Word) : Word := w &&& 0xFFC0#16

/-- Bits 5 to 0 of an opcode word: the register index (R93). -/
def operandIndex (w : Word) : BitVec 6 := w.setWidth 6

/-- The second word of a two-exchange frame. -/
def withOperand (w : Word) (make : Word → Instr) : List Word → Except DecodeError (Instr × List Word)
  | [] => .error (.missingOperandWord w)
  | v :: rest => .ok (make v, rest)

/-- One frame off the front of a word stream: the opcode word by the masks of R113, then the operand word where the
frame of R97 has one. Where opcode constants collide (R10 and R98 allow it, U19) the spec does not say which frame a bare
word names; the first match in the order `READ_BASE`, `WRITE_BASE`, `ARM_READ_OPCODE`, `ARM_WRITE_OPCODE`, `GO_OPCODE` is
taken. DESIGN CHOICE: log entry 34. -/
def decodeFrame (cfg : Config) : List Word → Except DecodeError (Instr × List Word)
  | [] => .error .noWord
  | w :: rest =>
    if selector w = cfg.readBase then .ok (.regRead (operandIndex w), rest)
    else if selector w = cfg.writeBase then withOperand w (.regWrite (operandIndex w)) rest
    else if w = cfg.armReadOpcode then withOperand w .armRead rest
    else if w = cfg.armWriteOpcode then withOperand w .armWrite rest
    else if w = cfg.goOpcode then .ok (.go, rest)
    else .error (.notAnOpcodeWord w)

/-! ### Codes: the three ways an instruction is written down -/

/-- A direct request names one of the ten operations with its operands; it has no bit pattern (R112, R232). -/
inductive Operation where
  | transferWord (outgoing : Nat)
  | enterDebugMode
  | isHalted
  | stop
  | reset
  | resume
  | readRegister (index : Nat)
  | writeRegister (index value : Nat)
  | readMemory (address : Addr) (length : Nat)
  | writeMemory (address : Addr) (data : List Byte)
deriving DecidableEq, Repr

/-- The table row an operation is. -/
def Operation.toInstr : Operation → Instr
  | .transferWord w => .transferWord w
  | .enterDebugMode => .enterDebugMode
  | .isHalted => .isHalted
  | .stop => .stop
  | .reset => .reset
  | .resume => .resume
  | .readRegister i => .readRegister i
  | .writeRegister i v => .writeRegister i v
  | .readMemory a n => .readMemory a n
  | .writeMemory a d => .writeMemory a d

/-- How an instruction is written: a request line with its terminator (CMD rows), the words of a frame (WIRE16 rows),
or an operation named directly (OP rows). -/
inductive Code where
  | line (bytes : List Byte)
  | words (ws : List Word)
  | op (o : Operation)
deriving DecidableEq, Repr

/-- Accept a decoded instruction only when nothing is left over. -/
def whole {α : Type} : Except DecodeError (Instr × List α) → Except DecodeError Instr
  | .error e => .error e
  | .ok (i, []) => .ok i
  | .ok (_, _ :: _) => .error .surplus

/-- The decoder: total, rejecting by name. -/
def decode (cfg : Config) : Code → Except DecodeError Instr
  | .line bytes => whole (decodeRequest cfg bytes)
  | .words ws => whole (decodeFrame cfg ws)
  | .op o => .ok o.toInstr

/-! ### The encoder -/

/-- A register opcode word: the index masked to 6 bits, then ORed into the base (R94). -/
def registerOpcode (base : Word) (index : Nat) : Word := base ||| (BitVec.ofNat 16 index &&& 0x003F#16)

/-- A canonical request line: the tokens with single spaces between them, ended by LF (R100, R101). -/
def requestLine (ts : List (List Byte)) : List Byte := [0x20#8].intercalate ts ++ [0x0A#8]

/-- The canonical code of an instruction: the words of the frame (R97), the canonical request line of the row, or the
direct request. -/
def encode (cfg : Config) : Instr → Code
  | .regRead idx => .words [registerOpcode cfg.readBase idx.toNat]
  | .regWrite idx value => .words [registerOpcode cfg.writeBase idx.toNat, value]
  | .go => .words [cfg.goOpcode]
  | .armRead addrWord => .words [cfg.armReadOpcode, addrWord]
  | .armWrite dataWord => .words [cfg.armWriteOpcode, dataWord]
  | .cmdReset => .line (requestLine [ascii "RESET"])
  | .cmdStop => .line (requestLine [ascii "STOP"])
  | .cmdGo => .line (requestLine [ascii "GO"])
  | .cmdStatus => .line (requestLine [ascii "STATUS"])
  | .cmdReadReg reg => .line (requestLine [ascii "READ_REG", reg])
  | .cmdWriteReg reg val => .line (requestLine [ascii "WRITE_REG", reg, val])
  | .cmdUnknown => .line (requestLine [ascii "?"])
  | .cmdEmpty => .line (requestLine [])
  | .cmdBlank => .line (requestLine [ascii " "])
  | .transferWord w => .op (.transferWord w)
  | .enterDebugMode => .op .enterDebugMode
  | .isHalted => .op .isHalted
  | .stop => .op .stop
  | .reset => .op .reset
  | .resume => .op .resume
  | .readRegister i => .op (.readRegister i)
  | .writeRegister i v => .op (.writeRegister i v)
  | .readMemory a n => .op (.readMemory a n)
  | .writeMemory a d => .op (.writeMemory a d)

/-! ### The table's words -/

/-- The bytes of a request line written as one number, the first byte least significant. -/
def tableBytes (nbits w : Nat) : List Byte :=
  (List.range (nbits / 8)).map fun i => BitVec.ofNat 8 (w / 2 ^ (8 * i))

/-- The words of a wire instruction written as one number: the opcode word, then an operand word of zeros. -/
def tableWords (w : Nat) : List Word := [BitVec.ofNat 16 w, 0#16]

/-- The instruction the decoder reads from a table row's bits. A row of 16 bits is a WIRE16 row (an opcode word, by the
configuration of the build); any other number of bits is a request line, byte by byte. DESIGN CHOICE: log entry 17. -/
def decodeTableWord (nbits w : Nat) : Option Instr :=
  if nbits = 16 then (decodeFrame Config.build (tableWords w)).toOption.map Prod.fst
  else (decodeRequest Config.build (tableBytes nbits w)).toOption.map Prod.fst

end Sys2Proof
end

