-- ==== Sys2Proof/Machine/State.lean ====
section
/-! DEFINITION. The state of the probe as plain data (`10_state.md`), the reasons a step can stop, and the state after
power-up (R300). -/

namespace Sys2Proof.Machine

/-- The three output latches (R22). -/
structure Pins where
  /-- `pin[DOUT]` (R23). -/
  dout : Level
  /-- `pin[CLK]` (R24). -/
  clk : Level
  /-- `pin[RST_N]` (R25). -/
  rstN : Level
deriving DecidableEq, Repr

/-- Which exchange of a two-exchange frame is in progress (R97). -/
inductive Phase where
  | first
  | second
deriving DecidableEq, Repr

/-- The value an operation returns (files 40 to 42). -/
inductive Result where
  /-- The operation returns no value. -/
  | void
  /-- `isHalted`, `stop`. -/
  | flag (b : Bool)
  /-- `transferWord`, `readRegister`. -/
  | word (w : Word)
  /-- `readMemory`. -/
  | bytes (bs : List Byte)
deriving DecidableEq, Repr

/-- A recognised verb whose operation runs, with what its response line needs (R214). -/
inductive Verb where
  | reset
  | stop
  | go
  | status
  /-- `READ_REG`: the argument token as typed (R108). -/
  | readReg (reg : List Byte)
  /-- `WRITE_REG`: the register token as typed and the parsed value (R107). -/
  | writeReg (reg : List Byte) (value : Nat)
deriving DecidableEq, Repr

/-- Who asked for the operation in progress: the direct interface (R232) or the command port (R215). -/
inductive Requester where
  | direct
  | verb (v : Verb)
deriving DecidableEq, Repr

/-- The position inside an operation in progress (R33) with the working values it holds (R28 to R30). -/
structure Position where
  /-- The operation and its operands (R30). -/
  op : Operation
  /-- The byte offset `k` of the current 2-byte step (R30). -/
  offset : Nat
  /-- The phase within the frame (R33). -/
  phase : Phase
  /-- The composed word of the exchange in progress (R30): what `transferWord` was given. -/
  outgoing : Nat
  /-- `BITPOS`, 16 down to 0 (R29). -/
  bitpos : Nat
  /-- The index of the next event within the bit step, 0 to 6 (R33); in an operation that only moves lines, the index
  of its next event. -/
  event : Nat
  /-- `ACC`, 17 bits (R28). -/
  acc : Acc
  /-- The bytes `readMemory` has collected so far (R30). -/
  collected : List Byte
deriving DecidableEq, Repr

/-- `SEQ`, the sequencer position (R33). -/
inductive Seq where
  /-- `IDLE`: no operation in progress. -/
  | idle
  /-- An operation is in progress. -/
  | running (who : Requester) (pos : Position)
  /-- A command's operation has emitted its last pin event; the next event is the `tx` of its response (R74, R213). -/
  | responding (text : List Byte)
deriving DecidableEq, Repr

/-- A request of the direct interface (R232): an operation with its operands, or the words of one frame of R97. -/
inductive Request where
  | op (o : Operation)
  | frame (ws : List Word)
deriving DecidableEq, Repr

/-- The whole state: the probe's own (R20), the channel's queues (R40), the configuration (R35), and the model's own
record of the events and supply of free inputs (R8, R27). -/
structure State where
  /-- The configuration constants (R35); no step changes them. -/
  cfg : Config
  /-- The output latches (R22). -/
  pins : Pins
  /-- `SEQ` (R33), with `ACC`, `BITPOS` and the frame working values while they exist (R28 to R30). -/
  seq : Seq
  /-- `LINEBUF` (R31). -/
  lineBuf : List Byte
  /-- `BANNER_SENT` (R31). -/
  bannerSent : Bool
  /-- Bytes the host has sent and the probe has not read, oldest first (R40). -/
  fromHost : List Byte
  /-- Bytes the probe has sent and the host has not taken, oldest first (R40). -/
  toHost : List Byte
  /-- Requests of the direct interface not yet accepted, oldest first (R232). -/
  requests : List Request
  /-- Results the direct interface has delivered, oldest first (R232). -/
  results : List Result
  /-- The trace: every event emitted since power-up, oldest first (R8, R16). -/
  trace : List Event
  /-- The target's coming answers, one for each `sample` event in trace order (R27). -/
  answers : List Level
  /-- The coming texts the spec leaves open, one for each draw (R225, R105). -/
  texts : List (List Byte)
deriving DecidableEq, Repr

/-- A fault raised while a recognised verb is handled, caught at the dispatcher boundary (R261, R265). It is an
ordinary step of the machine, not a stop. -/
inductive DispatchFault where
  /-- `NonHexArgument` (R262). -/
  | nonHexArgument
deriving DecidableEq, Repr

/-- What stops the machine with a fault: nothing. No error of the probe is fatal (R229), none is a fault of the model
(R281), and there is no state from which it cannot take a further command (R325). -/
inductive Fault where
deriving DecidableEq, Repr

/-- Why an instruction gets no meaning. -/
inductive Refusal where
  /-- Raised by an arm of `exec` for an instruction not modelled; no arm of this model raises it. Safe. -/
  | notModelled (mnemonic : String)
  /-- Raised by every meaning when `SEQ` is not `IDLE`: a request is accepted only when `SEQ = IDLE` (R232) and no
  behaviour is given to overlapping requests. `step` never asks for it. Safe. -/
  | operationInProgress
  /-- Raised by `step` for a frame request whose words are no frame of R97 (R98). Safe. -/
  | undecodable (e : DecodeError)
deriving DecidableEq, Repr

/-- The state right after power-up with configuration `cfg` and the drawn level of `DOUT` (R300): a single initial
condition, no events (R301). DESIGN CHOICE: log entry 4. -/
def State.powerUp (cfg : Config) (dout : Level) : State where
  cfg := cfg
  pins := { dout := dout, clk := true, rstN := true }
  seq := .idle
  lineBuf := []
  bannerSent := false
  fromHost := []
  toHost := []
  requests := []
  results := []
  trace := []
  answers := []
  texts := []

/-- The state right after power-up of the build (R300). -/
def State.reset : State := State.powerUp Config.build Config.doutAtPowerUp

end Sys2Proof.Machine
end

