-- ==== Sys2Proof/Machine/Flags.lean ====
section
/-! DEFINITION. The probe has no flags and no condition codes (R34). The only status the link carries is bit 16 of the
accumulator, which the Link Driver drops, and the level of the freeze-sense line, which nothing keeps. -/

namespace Sys2Proof.Machine

/-- `ACC <- ((ACC << 1) | b) & 0x1FFFF` (R28, R131). -/
def shiftIn (acc : Acc) (b : Level) : Acc := (acc <<< 1) ||| (BitVec.ofBool b).setWidth 17

/-- The status/sync position of a received word, the first bit sampled (R90, R137). -/
def statusBit (acc : Acc) : Bool := acc.getLsbD 16

/-- `ACC & 0xFFFF`: the payload; the status bit is dropped (R131, R137). -/
def payload (acc : Acc) : Word := acc.setWidth 16

/-- `isHalted`'s reading of the freeze-sense level: high is halted (R27, R154). -/
def halted (f : Level) : Bool := f

end Sys2Proof.Machine
end

