-- ==== Sys2Proof/Machine/Operands.lean ====
section
/-! DEFINITION. Operand forms: hexadecimal arguments (R104), register indices (R60, R94), memory words and their bytes
(R64), step addresses (R61), and the printed forms of a response line (R107). -/

namespace Sys2Proof.Machine

/-- The value of a hexadecimal digit, in either case; `none` for any other byte (R104). -/
def hexDigitValue (b : Byte) : Option Nat :=
  if 0x30 ≤ b.toNat ∧ b.toNat ≤ 0x39 then some (b.toNat - 0x30)
  else if 0x41 ≤ b.toNat ∧ b.toNat ≤ 0x46 then some (b.toNat - 0x41 + 10)
  else if 0x61 ≤ b.toNat ∧ b.toNat ≤ 0x66 then some (b.toNat - 0x61 + 10)
  else none

/-- Read digits, most significant first, onto the value read so far (R104). -/
def hexFrom (n : Nat) : List Byte → Except DispatchFault Nat
  | [] => .ok n
  | b :: rest =>
    match hexDigitValue b with
    | some d => hexFrom (16 * n + d) rest
    | none => .error .nonHexArgument

/-- `hex(token)`: one or more hexadecimal digits; any other token raises `NonHexArgument` (R104, R262). -/
def parseHex (t : List Byte) : Except DispatchFault Nat :=
  if t = [] then .error .nonHexArgument else hexFrom 0 t

/-- The upper-case hexadecimal digit of a value below 16 (R107). -/
def hexDigit (n : Nat) : Byte := if n < 10 then BitVec.ofNat 8 (0x30 + n) else BitVec.ofNat 8 (0x41 + (n - 10))

/-- `hex4`: exactly four upper-case digits, most significant first (R107). -/
def hex4 (v : Word) : List Byte :=
  [hexDigit (v.toNat / 4096 % 16), hexDigit (v.toNat / 256 % 16), hexDigit (v.toNat / 16 % 16), hexDigit (v.toNat % 16)]

/-- Bits 15 to 8 of a memory word: the byte at the lower address (R64). -/
def highByte (w : Word) : Byte := w.extractLsb' 8 8

/-- Bits 7 to 0 of a memory word: the byte at the higher address (R64). -/
def lowByte (w : Word) : Byte := w.extractLsb' 0 8

/-- `(data[k] << 8) | data[k+1]`: the big-endian word of two bytes (R64, R96). -/
def bigEndian (high low : Byte) : Word := (high.setWidth 16 <<< 8) ||| low.setWidth 16

/-- The address of the step at byte offset `k`: `(address + k) mod 2^32` (R61). -/
def stepAddress (address : Addr) (k : Nat) : Addr := address + BitVec.ofNat 32 k

/-- Printable ASCII, the bytes a response line may hold (R233). -/
def isPrintable (b : Byte) : Bool := decide (0x20 ≤ b.toNat) && decide (b.toNat ≤ 0x7E)

end Sys2Proof.Machine
end

