-- ==== Sys2Proof/Machine/Ops.lean ====
section
/-! DEFINITION. The named operations over the state: emitting events (R8, R16), driving and sampling lines (R22, R27),
sending on the byte channel (R40), drawing an open text, delivering a result, answering a request line (R213), and
catching a dispatch fault (R265). -/

namespace Sys2Proof.Machine

/-- Append an event to the trace (R16). -/
def State.emit (s : State) (e : Event) : State := { s with trace := s.trace ++ [e] }

/-- The latches with output line `p` at level `b` (R22). -/
def Pins.set (pins : Pins) : OutLine → Level → Pins
  | .dout, b => { pins with dout := b }
  | .clk, b => { pins with clk := b }
  | .rstN, b => { pins with rstN := b }

/-- The latch of an output line, `pin[P]` (R22). -/
def Pins.get (pins : Pins) : OutLine → Level
  | .dout => pins.dout
  | .clk => pins.clk
  | .rstN => pins.rstN

/-- `drive(P, b)`: an event, also when the latch already holds the level (R22). -/
def State.drive (s : State) (p : OutLine) (b : Level) : State :=
  { s.emit (.drive p b) with pins := s.pins.set p b }

/-- `wait(D)` (R8). -/
def State.wait (s : State) (d : Delay) : State := s.emit (.wait d)

/-- The target's answer to a sample taken now: the next of the answers supplied, or the free value where they have run
out. It is asked with the whole trace so far (R27, R134). -/
def State.answer (s : State) (p : InLine) : Level :=
  match s.answers with
  | b :: _ => b
  | [] => Config.targetAnswer s.trace p

/-- `b <- sample(P)`: takes one answer and records it in the trace (R8, R27). -/
def State.sample (s : State) (p : InLine) : State :=
  { s.emit (.sample p (s.answer p)) with answers := s.answers.tail }

/-- A step of an operation that emits one event; the level a sample will yield is not part of it (R45). -/
inductive Action where
  | drive (p : OutLine) (b : Level)
  | wait (d : Delay)
  | sample (p : InLine)
deriving DecidableEq, Repr

/-- Emit the event of one action. -/
def State.perform (s : State) : Action → State
  | .drive p b => s.drive p b
  | .wait d => s.wait d
  | .sample p => s.sample p

/-- The levels an action samples: one for a sample, none for a drive or a wait. -/
def State.sampled (s : State) : Action → List Level
  | .drive _ _ => []
  | .wait _ => []
  | .sample p => [s.answer p]

/-- Emit the events of a list of actions in order; returns the levels sampled, in order, and the state after. -/
def runScript : List Action → State → List Level × State
  | [], s => ([], s)
  | a :: rest, s => (s.sampled a ++ (runScript rest (s.perform a)).1, (runScript rest (s.perform a)).2)

/-- `tx(s)`: the bytes go to the host's queue (R8, R40). -/
def State.send (s : State) (bytes : List Byte) : State :=
  { s.emit (.tx bytes) with toHost := s.toHost ++ bytes }

/-- CR LF, the end of every line the probe sends (R106). -/
def crlf : List Byte := [0x0D#8, 0x0A#8]

/-- Emit a response as one `tx`, then clear `LINEBUF`; `SEQ` is `IDLE` after it (R210, R213, R229). -/
def State.respond (s : State) (text : List Byte) : State :=
  { s.send (text ++ crlf) with lineBuf := [], seq := .idle }

/-- The next open text: the next of the texts supplied, or the free value where they have run out. -/
def State.openText (s : State) : List Byte :=
  match s.texts with
  | t :: _ => t
  | [] => Config.openText s.trace

/-- Use up one open text. -/
def State.dropText (s : State) : State := { s with texts := s.texts.tail }

/-- `<message>` of a caught fault: any byte string without LF and CR (R12, R225). -/
def State.excMessage (s : State) : List Byte := s.openText.filter fun b => !isTerminator b

/-- The printed form of a `<val-hex>` above 0xFFFF, which the spec leaves open (R105, U11): any printable text.
DESIGN CHOICE: log entry 8. -/
def State.wideValueText (s : State) : List Byte := s.openText.filter isPrintable

/-- The response text of a caught fault (R106, R265). -/
def exceptionText (message : List Byte) : List Byte := ascii "ERROR: Exception " ++ message

/-- Fault entry and return in one: the handling of the verb stops, the fault is caught at the dispatcher boundary and
reported, and the port is back in its loop; nothing is saved, no mode changes and no line is driven (R265, R268). Every
kind of fault is reported the same way. -/
def State.catchFault (s : State) (_ : DispatchFault) : State :=
  s.dropText.respond (exceptionText s.excMessage)

/-- The direct interface receives an operation's result when the operation has emitted its last event (R232). -/
def State.deliver (s : State) (r : Result) : State := { s with results := s.results ++ [r], seq := .idle }

/-- A request is accepted only when `SEQ = IDLE`, and then runs to completion (R230, R232). -/
def accept (s : State) (run : State → State) : Host.Outcome State Fault Refusal :=
  if s.seq = .idle then .next (run s) else .refused .operationInProgress

end Sys2Proof.Machine
end

