-- ==== Sys2Proof/Machine/LinkDriver.lean ====
section
/-! DEFINITION. The Link Driver: `transferWord` (`40_link_driver.md`). -/

namespace Sys2Proof.Machine

/-- The seven events of the bit step at `BITPOS = bitpos`: bit 16 is always driven 0, bits 15 to 0 as the caller's value
has them (R131, R132). -/
def bitScript (outgoing bitpos : Nat) : List Action :=
  [ .drive .dout (if bitpos = 16 then false else outgoing.testBit bitpos),
    .wait .qBit,
    .drive .clk false,
    .wait .qBit,
    .drive .clk true,
    .sample .din,
    .wait .qBit ]

/-- One bit step: its events, and the sampled bit shifted into `ACC` (R131). -/
def bitStep (outgoing bitpos : Nat) (acc : Acc) (s : State) : Acc × State :=
  let r := runScript (bitScript outgoing bitpos) s
  (r.1.foldl shiftIn acc, r.2)

/-- The bit steps from `BITPOS = n - 1` down to 0 (R29, R131). -/
def bitSteps (outgoing : Nat) : Nat → Acc → State → Acc × State
  | 0, acc, s => (acc, s)
  | n + 1, acc, s =>
    let r := bitStep outgoing n acc s
    bitSteps outgoing n r.1 r.2

/-- `transferWord(outgoing)`, written `xfer` in the spec: `ACC` starts at 0, 17 bit steps, the low 16 bits of `ACC` are
returned (R130, R131). -/
def transferWord (outgoing : Nat) (s : State) : Word × State :=
  let r := bitSteps outgoing 17 0#17 s
  (payload r.1, r.2)

/-- `transferWord` as a direct request (R131, R232). -/
def execTransferWord (outgoing : Nat) (s : State) : Host.Outcome State Fault Refusal :=
  accept s fun s =>
    let r := transferWord outgoing s
    r.2.deliver (.word r.1)

end Sys2Proof.Machine
end

