-- ==== Sys2Proof/Machine/AccessLayer.lean ====
section
/-! DEFINITION. The Access Layer: the frames of R97 and the operations composed of them, `readRegister`,
`writeRegister`, `readMemory`, `writeMemory` (`42_access_layer.md`). -/

namespace Sys2Proof.Machine

/-- `readRegister(index)`: frame REG_READ; the reply of the same exchange is the value (R97, R181). -/
def readRegister (index : Nat) (s : State) : Word × State :=
  transferWord (registerOpcode s.cfg.readBase index).toNat s

/-- `writeRegister(index, value)`: frame REG_WRITE; both replies ignored (R97, R184). -/
def writeRegister (index value : Nat) (s : State) : State :=
  let s1 := (transferWord (registerOpcode s.cfg.writeBase index).toNat s).2
  (transferWord value s1).2

/-- Frame MEM_READ_STEP: the arm-read opcode, then the address itself, of which 16 bits reach the wire; the second reply
is kept (R62, R97, R188). -/
def memReadStep (address : Nat) (s : State) : Word × State :=
  let s1 := (transferWord s.cfg.armReadOpcode.toNat s).2
  transferWord address s1

/-- Frame MEM_WRITE_STEP: the arm-write opcode, then the data word; no address (R97, R192, R193). -/
def memWriteStep (data : Nat) (s : State) : State :=
  let s1 := (transferWord s.cfg.armWriteOpcode.toNat s).2
  (transferWord data s1).2

/-- `n` steps of `readMemory` from byte offset `k`, onto the bytes collected so far (R187, R188). -/
def readSteps (address : Addr) : Nat → Nat → List Byte → State → List Byte × State
  | 0, _, out, s => (out, s)
  | n + 1, k, out, s =>
    let r := memReadStep (stepAddress address k).toNat s
    readSteps address n (k + 2) (out ++ [highByte r.1, lowByte r.1]) r.2

/-- `readMemory(address, length)`: `floor(length / 2)` steps; an odd last byte is never visited (R67, R188).
DESIGN CHOICE: log entry 12. -/
def readMemory (address : Addr) (length : Nat) (s : State) : List Byte × State :=
  readSteps address (length / 2) 0 [] s

/-- The steps of `writeMemory`: two bytes each, a trailing odd byte never sent (R192, R194). -/
def writeSteps : List Byte → State → State
  | high :: low :: rest, s => writeSteps rest (memWriteStep (bigEndian high low).toNat s)
  | [_], s => s
  | [], s => s

/-- `writeMemory(address, data)`: the address has no effect on any event (R192, R193). DESIGN CHOICE: log
entry 13. -/
def writeMemory (_address : Addr) (data : List Byte) (s : State) : State := writeSteps data s

/-- `readRegister` as a direct request. -/
def execReadRegister (index : Nat) (s : State) : Host.Outcome State Fault Refusal :=
  accept s fun s =>
    let r := readRegister index s
    r.2.deliver (.word r.1)

/-- `writeRegister` as a direct request. -/
def execWriteRegister (index value : Nat) (s : State) : Host.Outcome State Fault Refusal :=
  accept s fun s => (writeRegister index value s).deliver .void

/-- `readMemory` as a direct request. -/
def execReadMemory (address : Addr) (length : Nat) (s : State) : Host.Outcome State Fault Refusal :=
  accept s fun s =>
    let r := readMemory address length s
    r.2.deliver (.bytes r.1)

/-- `writeMemory` as a direct request. -/
def execWriteMemory (address : Addr) (data : List Byte) (s : State) : Host.Outcome State Fault Refusal :=
  accept s fun s => (writeMemory address data s).deliver .void

/-- Frame REG_READ alone (R97, R181). -/
def execRegRead (idx : BitVec 6) (s : State) : Host.Outcome State Fault Refusal :=
  accept s fun s =>
    let r := readRegister idx.toNat s
    r.2.deliver (.word r.1)

/-- Frame REG_WRITE alone (R97, R184). -/
def execRegWrite (idx : BitVec 6) (value : Word) (s : State) : Host.Outcome State Fault Refusal :=
  accept s fun s => (writeRegister idx.toNat value.toNat s).deliver .void

/-- Frame MEM_READ_STEP alone; its kept reply is two bytes (R97, R188). -/
def execArmRead (addrWord : Word) (s : State) : Host.Outcome State Fault Refusal :=
  accept s fun s =>
    let r := memReadStep addrWord.toNat s
    r.2.deliver (.bytes [highByte r.1, lowByte r.1])

/-- Frame MEM_WRITE_STEP alone (R97, R192). -/
def execArmWrite (dataWord : Word) (s : State) : Host.Outcome State Fault Refusal :=
  accept s fun s => (memWriteStep dataWord.toNat s).deliver .void

end Sys2Proof.Machine
end

