-- ==== Sys2Proof/Machine/ModeController.lean ====
section
/-! DEFINITION. The Mode Controller: `enterDebugMode`, `isHalted`, `stop`, `reset`, `resume` (`41_mode_controller.md`). -/

namespace Sys2Proof.Machine

/-- The events of `enterDebugMode`: halt request low before the reset pulse, and still low after it (R151 to R153).
DESIGN CHOICE: log entry 16. -/
def enterScript : List Action :=
  [ .drive .clk false, .drive .rstN false, .wait .tDbgAssert, .drive .rstN true, .wait .tDbgRelease ]

/-- The one event of `isHalted` (R154). -/
def haltedScript : List Action := [.sample .frz]

/-- The events of `stop`: `enterDebugMode`, one more delay, one sample (R155). -/
def stopScript : List Action := enterScript ++ [.wait .tStopSettle] ++ haltedScript

/-- The events of `reset`: a low pulse on `RST_N` and nothing else (R158, R159). DESIGN CHOICE: log
entry 15. -/
def resetScript : List Action :=
  [ .drive .rstN false, .wait .tRstLow, .drive .rstN true, .wait .tRstHigh ]

/-- `isHalted`'s answer from the level its script sampled (R154). -/
def haltedAnswer (bits : List Level) : Bool := bits.any halted

/-- `enterDebugMode()` (R151). -/
def enterDebugMode (s : State) : State := (runScript enterScript s).2

/-- `isHalted()` (R154). -/
def isHalted (s : State) : Bool × State :=
  let r := runScript haltedScript s
  (haltedAnswer r.1, r.2)

/-- `stop()`: its value is that of the one sample at its end (R155). -/
def stop (s : State) : Bool × State :=
  let r := runScript stopScript s
  (haltedAnswer r.1, r.2)

/-- `reset()` of the target (R158). -/
def resetTarget (s : State) : State := (runScript resetScript s).2

/-- `resume()`: one exchange of `GO_OPCODE`, the reply discarded (R160). -/
def resume (s : State) : State := (transferWord s.cfg.goOpcode.toNat s).2

/-- `enterDebugMode` as a direct request. -/
def execEnterDebugMode (s : State) : Host.Outcome State Fault Refusal :=
  accept s fun s => (enterDebugMode s).deliver .void

/-- `isHalted` as a direct request. -/
def execIsHalted (s : State) : Host.Outcome State Fault Refusal :=
  accept s fun s =>
    let r := isHalted s
    r.2.deliver (.flag r.1)

/-- `stop` as a direct request. -/
def execStop (s : State) : Host.Outcome State Fault Refusal :=
  accept s fun s =>
    let r := stop s
    r.2.deliver (.flag r.1)

/-- `reset` as a direct request. -/
def execReset (s : State) : Host.Outcome State Fault Refusal :=
  accept s fun s => (resetTarget s).deliver .void

/-- `resume` as a direct request. -/
def execResume (s : State) : Host.Outcome State Fault Refusal :=
  accept s fun s => (resume s).deliver .void

/-- Frame GO alone (R97, R160). -/
def execGo (s : State) : Host.Outcome State Fault Refusal :=
  accept s fun s => (transferWord s.cfg.goOpcode.toNat s).2.deliver .void

end Sys2Proof.Machine
end

