-- ==== Sys2Proof/Machine/CommandPort.lean ====
section
/-! DEFINITION. The command port: the banner, the response texts and the nine command rows (`43_command_port.md`). -/

namespace Sys2Proof.Machine

/-- `BANNER` (R12, R212). -/
def banner : List Byte := ascii "MC68332 BDM MicroPython Interface Ready"

/-- The banner line is emitted once, before the first `rx`; it sets `BANNER_SENT` and `LINEBUF` starts empty (R210,
R212). -/
def State.sendBanner (s : State) : State := { s.send (banner ++ crlf) with bannerSent := true, lineBuf := [] }

/-- RSP_UNKNOWN (R106). -/
def unknownText : List Byte := ascii "ERROR: Unknown or malformed command"

/-- The 16-bit number in a result (R107). -/
def Result.toWord : Result → Word
  | .word w => w
  | .void => 0#16
  | .flag _ => 0#16
  | .bytes _ => 0#16

/-- The `<VVVV>` of a `WRITE_REG` response: the four digits of the parsed value, and the open text where the value has
more than 16 bits (R105, R107, R223). -/
def State.valueText (s : State) (value : Nat) : List Byte :=
  if value ≤ 0xFFFF then hex4 (BitVec.ofNat 16 value) else s.wideValueText

/-- The response text of a recognised verb whose operation returned `r` (R106, R214). -/
def State.responseText (s : State) : Verb → Result → List Byte
  | .reset, _ => ascii "OK: CPU reset"
  | .stop, r => if r = .flag true then ascii "OK: CPU halted in BDM" else ascii "ERROR: Failed to halt CPU"
  | .go, _ => ascii "OK: CPU resumed"
  | .status, r => if r = .flag true then ascii "HALTED" else ascii "RUNNING"
  | .readReg reg, r => ascii "REG " ++ reg ++ ascii " = 0x" ++ hex4 r.toWord
  | .writeReg reg value, _ => ascii "REG " ++ reg ++ ascii " <- 0x" ++ s.valueText value

/-- What formatting the response uses up: the open text, where one is printed. -/
def State.afterText (s : State) : Verb → State
  | .writeReg _ value => if value ≤ 0xFFFF then s else s.dropText
  | .reset => s
  | .stop => s
  | .go => s
  | .status => s
  | .readReg _ => s

/-- The verb's operation has returned `r`: emit the response (R213). -/
def State.answerVerb (s : State) (v : Verb) (r : Result) : State := (s.afterText v).respond (s.responseText v r)

/-- `RESET` (R216). -/
def execCmdReset (s : State) : Host.Outcome State Fault Refusal :=
  accept s fun s => (resetTarget s).answerVerb .reset .void

/-- `STOP` (R217). -/
def execCmdStop (s : State) : Host.Outcome State Fault Refusal :=
  accept s fun s =>
    let r := stop s
    r.2.answerVerb .stop (.flag r.1)

/-- `GO` (R218). -/
def execCmdGo (s : State) : Host.Outcome State Fault Refusal :=
  accept s fun s => (resume s).answerVerb .go .void

/-- `STATUS` (R219). -/
def execCmdStatus (s : State) : Host.Outcome State Fault Refusal :=
  accept s fun s =>
    let r := isHalted s
    r.2.answerVerb .status (.flag r.1)

/-- `READ_REG`: the argument is parsed before the exchange (R220, R222). -/
def execCmdReadReg (reg : List Byte) (s : State) : Host.Outcome State Fault Refusal :=
  accept s fun s =>
    match parseHex reg with
    | .error f => s.catchFault f
    | .ok index =>
      let r := readRegister index s
      r.2.answerVerb (.readReg reg) (.word r.1)

/-- Both arguments of `WRITE_REG`, the first first (R220, R269). -/
def parseTwo (reg val : List Byte) : Except DispatchFault (Nat × Nat) :=
  match parseHex reg with
  | .error f => .error f
  | .ok index =>
    match parseHex val with
    | .error f => .error f
    | .ok value => .ok (index, value)

/-- `WRITE_REG`: both arguments are parsed before the first exchange (R220, R223). -/
def execCmdWriteReg (reg val : List Byte) (s : State) : Host.Outcome State Fault Refusal :=
  accept s fun s =>
    match parseTwo reg val with
    | .error f => s.catchFault f
    | .ok (index, value) => (writeRegister index value s).answerVerb (.writeReg reg value) .void

/-- Anything else: one error response, no pin event (R109, R224). -/
def execCmdUnknown (s : State) : Host.Outcome State Fault Refusal :=
  accept s fun s => s.respond unknownText

/-- The empty request: nothing at all (R211). -/
def execCmdEmpty (s : State) : Host.Outcome State Fault Refusal :=
  accept s fun s => s

/-- A whitespace-only line is answered as anything else (R109, R226). -/
def execCmdBlank (s : State) : Host.Outcome State Fault Refusal :=
  accept s fun s => s.respond unknownText

end Sys2Proof.Machine
end

