-- ==== Sys2Proof/Machine/Dispatch.lean ====
section
/-! DEFINITION. One arm per instruction: the meaning it calls, which runs the instruction to its end (R45, R230). `step` goes
through the same events one by one (R33, `Machine/Sequencer.lean`, log entry 18). -/

namespace Sys2Proof.Machine

def exec (i : Instr) (s : State) : Host.Outcome State Fault Refusal :=
  match i with
  -- WIRE16 rows
  | .regRead idx => Sys2Proof.Machine.execRegRead idx s
  | .regWrite idx value => Sys2Proof.Machine.execRegWrite idx value s
  | .go => Sys2Proof.Machine.execGo s
  | .armRead addrWord => Sys2Proof.Machine.execArmRead addrWord s
  | .armWrite dataWord => Sys2Proof.Machine.execArmWrite dataWord s
  -- CMD rows
  | .cmdReset => Sys2Proof.Machine.execCmdReset s
  | .cmdStop => Sys2Proof.Machine.execCmdStop s
  | .cmdGo => Sys2Proof.Machine.execCmdGo s
  | .cmdStatus => Sys2Proof.Machine.execCmdStatus s
  | .cmdReadReg reg => Sys2Proof.Machine.execCmdReadReg reg s
  | .cmdWriteReg reg val => Sys2Proof.Machine.execCmdWriteReg reg val s
  | .cmdUnknown => Sys2Proof.Machine.execCmdUnknown s
  | .cmdEmpty => Sys2Proof.Machine.execCmdEmpty s
  | .cmdBlank => Sys2Proof.Machine.execCmdBlank s
  -- OP rows
  | .transferWord outgoing => Sys2Proof.Machine.execTransferWord outgoing s
  | .enterDebugMode => Sys2Proof.Machine.execEnterDebugMode s
  | .isHalted => Sys2Proof.Machine.execIsHalted s
  | .stop => Sys2Proof.Machine.execStop s
  | .reset => Sys2Proof.Machine.execReset s
  | .resume => Sys2Proof.Machine.execResume s
  | .readRegister index => Sys2Proof.Machine.execReadRegister index s
  | .writeRegister index value => Sys2Proof.Machine.execWriteRegister index value s
  | .readMemory address length => Sys2Proof.Machine.execReadMemory address length s
  | .writeMemory address data => Sys2Proof.Machine.execWriteMemory address data s

end Sys2Proof.Machine
end

