-- ==== Sys2Proof/Machine/Sequencer.lean ====
section
/-! DEFINITION. The sequencer event by event (R33): the same operations as in the meanings, but with the position inside
the operation in the state, so that one step emits exactly one event. `start` is the state in which an instruction's
operation is about to emit its first event; `tick` emits the next one. `step` runs instructions in this form. -/

namespace Sys2Proof.Machine

/-- The events of an operation that only moves lines; none for an operation made of exchanges (R151 to R158). -/
def lineScript : Operation → List Action
  | .enterDebugMode => enterScript
  | .isHalted => haltedScript
  | .stop => stopScript
  | .reset => resetScript
  | .transferWord _ => []
  | .resume => []
  | .readRegister _ => []
  | .writeRegister _ _ => []
  | .readMemory _ _ => []
  | .writeMemory _ _ => []

/-- What the exchange at byte offset `k` and the given phase sends; `none` when the operation has no such exchange
(R97, R131, R160, R181, R184, R188, R192). -/
def outgoingAt (cfg : Config) : Operation → Nat → Phase → Option Nat
  | .transferWord w, 0, .first => some w
  | .resume, 0, .first => some cfg.goOpcode.toNat
  | .readRegister i, 0, .first => some (registerOpcode cfg.readBase i).toNat
  | .writeRegister i _, 0, .first => some (registerOpcode cfg.writeBase i).toNat
  | .writeRegister _ v, 0, .second => some v
  | .readMemory _ n, k, .first => if k + 1 < n then some cfg.armReadOpcode.toNat else none
  | .readMemory a n, k, .second => if k + 1 < n then some (stepAddress a k).toNat else none
  | .writeMemory _ d, k, .first => if k + 1 < d.length then some cfg.armWriteOpcode.toNat else none
  | .writeMemory _ d, k, .second =>
    if k + 1 < d.length then some (bigEndian (d.getD k 0#8) (d.getD (k + 1) 0#8)).toNat else none
  | _, _, _ => none

/-- The place of the exchange after this one: the second phase, or the first phase of the next 2-byte step. -/
def nextExchange : Nat → Phase → Nat × Phase
  | k, .first => (k, .second)
  | k, .second => (k + 2, .first)

/-- The bytes collected when an exchange has ended with reply `w`: `readMemory` keeps the second reply of each step
(R188). -/
def collect (p : Position) (w : Word) : List Byte :=
  match p.op, p.phase with
  | .readMemory _ _, .second => p.collected ++ [highByte w, lowByte w]
  | _, _ => p.collected

/-- What an operation returns, from the last reply, the bytes collected and the levels its last event sampled. -/
def resultOf (op : Operation) (reply : Word) (collected : List Byte) (bits : List Level) : Result :=
  match op with
  | .transferWord _ => .word reply
  | .readRegister _ => .word reply
  | .readMemory _ _ => .bytes collected
  | .isHalted => .flag (haltedAnswer bits)
  | .stop => .flag (haltedAnswer bits)
  | .enterDebugMode => .void
  | .reset => .void
  | .resume => .void
  | .writeRegister _ _ => .void
  | .writeMemory _ _ => .void

/-- The operation has emitted its last event: the direct interface gets the result, or the command's response is next. -/
def State.complete (s : State) (who : Requester) (r : Result) : State :=
  match who with
  | .direct => s.deliver r
  | .verb v => { s.afterText v with seq := .responding (s.responseText v r) }

/-- The position at the first event of an exchange: `ACC` is 0, `BITPOS` is 16 (R131). -/
def atExchange (op : Operation) (k : Nat) (phase : Phase) (outgoing : Nat) (collected : List Byte) : Position :=
  { op := op, offset := k, phase := phase, outgoing := outgoing, bitpos := 16, event := 0, acc := 0#17,
    collected := collected }

/-- Go to the exchange at offset `k` and `phase`, or complete where the operation has none. -/
def State.goTo (s : State) (who : Requester) (op : Operation) (k : Nat) (phase : Phase) (reply : Word)
    (collected : List Byte) : State :=
  match outgoingAt s.cfg op k phase with
  | some w => { s with seq := .running who (atExchange op k phase w collected) }
  | none => s.complete who (resultOf op reply collected [])

/-- The state before the first event of an operation. -/
def State.begin (s : State) (who : Requester) (op : Operation) : State :=
  match lineScript op with
  | _ :: _ => { s with seq := .running who (atExchange op 0 .first 0 []) }
  | [] => s.goTo who op 0 .first 0#16 []

/-- The next event of an operation that only moves lines. -/
def State.tickLine (s : State) (who : Requester) (p : Position) : State :=
  match (lineScript p.op).drop p.event with
  | [] => s.complete who (resultOf p.op 0#16 p.collected [])
  | [a] => (s.perform a).complete who (resultOf p.op 0#16 p.collected (s.sampled a))
  | a :: _ :: _ => { s.perform a with seq := .running who { p with event := p.event + 1 } }

/-- An exchange has emitted its last event with the accumulator at `acc`. -/
def State.exchangeDone (s : State) (who : Requester) (p : Position) (acc : Acc) : State :=
  s.goTo who p.op (nextExchange p.offset p.phase).1 (nextExchange p.offset p.phase).2 (payload acc)
    (collect p (payload acc))

/-- The next event of an exchange: event 0 to 6 of the bit step at `BITPOS`, then the next bit step, then the next
exchange (R33, R131). -/
def State.tickExchange (s : State) (who : Requester) (p : Position) : State :=
  match (bitScript p.outgoing p.bitpos).drop p.event with
  | [] => s.exchangeDone who p p.acc
  | a :: rest =>
    let s1 := s.perform a
    let acc := (s.sampled a).foldl shiftIn p.acc
    match rest, p.bitpos with
    | _ :: _, _ => { s1 with seq := .running who { p with event := p.event + 1, acc := acc } }
    | [], n + 1 => { s1 with seq := .running who { p with bitpos := n, event := 0, acc := acc } }
    | [], 0 => s1.exchangeDone who p acc

/-- Emit the next event of what is in progress (R33); nothing when `SEQ` is `IDLE`. -/
def State.tick (s : State) : State :=
  match s.seq with
  | .idle => s
  | .responding text => s.respond text
  | .running who p =>
    match lineScript p.op with
    | [] => s.tickExchange who p
    | _ :: _ => s.tickLine who p

/-- A caught fault on its way to its response (R265). -/
def State.beginFault (s : State) (_ : DispatchFault) : State :=
  { s.dropText with seq := .responding (exceptionText s.excMessage) }

/-- The state in which the instruction is about to emit its first event. -/
def State.start (s : State) : Instr → State
  | .regRead idx => s.begin .direct (.readRegister idx.toNat)
  | .regWrite idx value => s.begin .direct (.writeRegister idx.toNat value.toNat)
  | .go => s.begin .direct .resume
  | .armRead addrWord => s.begin .direct (.readMemory (addrWord.setWidth 32) 2)
  | .armWrite dataWord => s.begin .direct (.writeMemory 0#32 [highByte dataWord, lowByte dataWord])
  | .cmdReset => s.begin (.verb .reset) .reset
  | .cmdStop => s.begin (.verb .stop) .stop
  | .cmdGo => s.begin (.verb .go) .resume
  | .cmdStatus => s.begin (.verb .status) .isHalted
  | .cmdReadReg reg =>
    match parseHex reg with
    | .error f => s.beginFault f
    | .ok index => s.begin (.verb (.readReg reg)) (.readRegister index)
  | .cmdWriteReg reg val =>
    match parseTwo reg val with
    | .error f => s.beginFault f
    | .ok (index, value) => s.begin (.verb (.writeReg reg value)) (.writeRegister index value)
  | .cmdUnknown => { s with seq := .responding unknownText }
  | .cmdEmpty => s
  | .cmdBlank => { s with seq := .responding unknownText }
  | .transferWord w => s.begin .direct (.transferWord w)
  | .enterDebugMode => s.begin .direct .enterDebugMode
  | .isHalted => s.begin .direct .isHalted
  | .stop => s.begin .direct .stop
  | .reset => s.begin .direct .reset
  | .resume => s.begin .direct .resume
  | .readRegister i => s.begin .direct (.readRegister i)
  | .writeRegister i v => s.begin .direct (.writeRegister i v)
  | .readMemory a n => s.begin .direct (.readMemory a n)
  | .writeMemory a d => s.begin .direct (.writeMemory a d)

end Sys2Proof.Machine
end

