-- ==== Sys2Proof/Machine/Port.lean ====
section
/-! DEFINITION. The port's loop (R210, R230, R232): where the next instruction comes from, when it is accepted, and the one
event that each step emits (R33). -/

namespace Sys2Proof.Machine

/-- One byte is taken from the channel, the `rx` event of the step: a terminator dispatches the line, so that `SEQ` is then
at the first event of the command (R210, R215); any other byte is appended to the line unchanged (R227). -/
def receive (c : Byte) (s : State) : State :=
  if isTerminator c then (s.emit (.rx c)).start (decodeLine s.cfg s.lineBuf)
  else { s.emit (.rx c) with lineBuf := s.lineBuf ++ [c] }

/-- A request of the direct interface as a code (R232). -/
def Request.code : Request → Code
  | .op o => .op o
  | .frame ws => .words ws

/-- A direct request is decoded and accepted, and its first event is emitted, where it has one (R33, R232). -/
def runRequest (r : Request) (s : State) : Host.Outcome State Fault Refusal :=
  match decode s.cfg r.code with
  | .ok i => .next (s.start i).tick
  | .error e => .refused (.undecodable e)

/-- What the port does when nothing is in progress: the banner first (R212); then a direct request that waits; then the
next byte of the channel; with neither, `rx` blocks and nothing changes (R271, R279). DESIGN CHOICE: log entries
11 and 22. -/
def idleStep (s : State) : Host.Outcome State Fault Refusal :=
  if s.bannerSent then
    match s.requests, s.fromHost with
    | r :: rest, _ => runRequest r { s with requests := rest }
    | [], c :: rest => .next (receive c { s with fromHost := rest })
    | [], [] => .next s
  else .next s.sendBanner

/-- One step: the next event of the operation in progress, or the loop's next act. `SEQ` advances by one event (R33). -/
def portStep (s : State) : Host.Outcome State Fault Refusal :=
  if s.seq = .idle then idleStep s else .next s.tick

/-- The words of the frame that starts with `w`, its operand word zero: as many as the decoder reads. -/
def frameWords (cfg : Config) (w : Nat) : List Word :=
  match decodeFrame cfg (tableWords w) with
  | .ok (_, rest) => (tableWords w).take (2 - rest.length)
  | .error _ => tableWords w

/-- Bytes to be received next, of which those up to the first terminator are already in `LINEBUF`; where there is no
terminator, all are still to be received. -/
def State.withLine (s : State) (bytes : List Byte) : State :=
  match bytes.dropWhile (fun b => !isTerminator b) with
  | [] => { s with lineBuf := [], fromHost := bytes ++ s.fromHost }
  | c :: rest =>
    { s with lineBuf := bytes.takeWhile (fun b => !isTerminator b), fromHost := c :: rest ++ s.fromHost }

/-- The state whose next step runs the instruction of a table row: the port is idle and past its banner, and the frame
is the first direct request, or the line's terminator the next byte; that step accepts it, and the steps after it emit its
events one by one. -/
def State.withTableWord (s : State) (nbits w : Nat) : State :=
  let ready : State := { s with seq := .idle, bannerSent := true }
  if nbits = 16 then { ready with requests := [.frame (frameWords s.cfg w)] }
  else { ready with requests := [] }.withLine (tableBytes nbits w)

end Sys2Proof.Machine
end

