-- ==== Sys2Proof/Machine/Step.lean ====
section
/-! DEFINITION. The machine's step, and the state whose next step runs a given table word. -/

namespace Sys2Proof.Machine

/-- One step of the probe (R33, R210). -/
def step (s : State) : Host.Outcome State Fault Refusal := portStep s

/-- `s` with a table row's instruction stored where `step` takes its next instruction from. -/
def State.withFetchWord (s : State) (nbits w : Nat) : State := s.withTableWord nbits w

end Sys2Proof.Machine
end

