-- ==== Sys2Proof/EchoTarget.lean ====
section
/-! DEFINITION. The echo target of `95_test_vectors.md` section 4: a fixture, not part of the probe (R162). It answers
whole exchanges (R183), so it is a function from the words the probe sends to the levels the probe samples. No definition
of the machine depends on it. -/

namespace Sys2Proof.EchoTarget

/-- What the fixture expects the next word to be. -/
inductive Pending where
  | none
  | regData (i : Nat)
  | memAddr
  | memData
deriving DecidableEq, Repr

/-- The fixture's state. -/
structure Target where
  regs : List Word
  mem : List (Word × Word)
  halted : Bool
  pend : Pending
  wlog : List Word
deriving DecidableEq, Repr

/-- One exchange: the reply payload and the state after it. -/
def exchange (cfg : Config) (t : Target) (out : Word) : Word × Target :=
  if t.halted = false then (0xFFFF#16, t)
  else
    match t.pend with
    | .regData i => (0#16, { t with regs := t.regs.set i out, pend := .none })
    | .memAddr => ((t.mem.lookup out).getD 0#16, { t with pend := .none })
    | .memData => (0#16, { t with wlog := t.wlog ++ [out], pend := .none })
    | .none =>
      if out &&& 0xFFC0#16 = cfg.readBase then (t.regs.getD (out &&& 0x3F#16).toNat 0#16, t)
      else if out &&& 0xFFC0#16 = cfg.writeBase then (0#16, { t with pend := .regData (out &&& 0x3F#16).toNat })
      else if out = cfg.armReadOpcode then (0#16, { t with pend := .memAddr })
      else if out = cfg.armWriteOpcode then (0#16, { t with pend := .memData })
      else if out = cfg.goOpcode then (0#16, { t with halted := false })
      else (0xFFFF#16, t)

/-- The 17 levels of a reply, in the order sampled: the status bit, always 0, then bits 15 to 0. -/
def replyLevels (w : Word) : List Level := false :: (List.range 16).map fun j => w.getLsbD (15 - j)

/-- The levels the fixture answers to the words of several exchanges. -/
def answers (cfg : Config) : Target → List Word → List Level
  | _, [] => []
  | t, out :: rest => replyLevels (exchange cfg t out).1 ++ answers cfg (exchange cfg t out).2 rest

end Sys2Proof.EchoTarget
end

