-- ==== Sys2Proof/Machine/Environment.lean ====
section
/-! DEFINITION. What the outside world can do to the probe (`43_command_port.md` section 5, R7, R302): none of it is a
step of the probe. -/

namespace Sys2Proof.Machine

/-- The host sends bytes; they wait in the channel in order (R40, R234). -/
def State.hostSends (s : State) (bytes : List Byte) : State := { s with fromHost := s.fromHost ++ bytes }

/-- The host takes the next `n` bytes the probe has sent (R40). -/
def State.hostTakes (s : State) (n : Nat) : State := { s with toHost := s.toHost.drop n }

/-- A request reaches the direct interface; it waits until it is accepted (R232). -/
def State.requested (s : State) (r : Request) : State := { s with requests := s.requests ++ [r] }

/-- The target's coming answers (R7, R27). -/
def State.targetAnswers (s : State) (bits : List Level) : State := { s with answers := s.answers ++ bits }

/-- An external power-cycle: back to R300 with a new draw of `DOUT`, the configuration kept, nothing else (R302, R304).
The free answers and texts depend on the trace alone, which starts again: a run repeated with nothing new placed draws the
same ones, which the spec does not say (R303, U4); `targetAnswers` places others. DESIGN CHOICE: log entry 25. -/
def State.powerCycle (s : State) (dout : Level) : State := State.powerUp s.cfg dout

end Sys2Proof.Machine
end

