-- ==== Sys2Proof/WellFormed.lean ====
section
/-! DEFINITION. Which terms of `Instr` stand for an instruction: a command's argument tokens are tokens (R101). Every
other field has its bound in its type. -/

namespace Sys2Proof

/-- A token: one or more bytes, none of them whitespace, none a terminator (R100, R101). -/
def tokenOk (cfg : Config) (t : List Byte) : Bool :=
  !t.isEmpty && t.all fun b => !isSpace cfg b && !isTerminator b

/-- Well-formed instructions. -/
def Instr.wf (cfg : Config) : Instr → Bool
  | .cmdReadReg reg => tokenOk cfg reg
  | .cmdWriteReg reg val => tokenOk cfg reg && tokenOk cfg val
  | .regRead _ => true
  | .regWrite _ _ => true
  | .go => true
  | .armRead _ => true
  | .armWrite _ => true
  | .cmdReset => true
  | .cmdStop => true
  | .cmdGo => true
  | .cmdStatus => true
  | .cmdUnknown => true
  | .cmdEmpty => true
  | .cmdBlank => true
  | .transferWord _ => true
  | .enterDebugMode => true
  | .isHalted => true
  | .stop => true
  | .reset => true
  | .resume => true
  | .readRegister _ => true
  | .writeRegister _ _ => true
  | .readMemory _ _ => true
  | .writeMemory _ _ => true

end Sys2Proof
end

