-- ==== Sys2Proof/Safety.lean ====
section
/-! DEFINITION. The terms claims are stated in: the event lists the spec writes out for the operations, what a trace says
of the lines and of the channel, durations, and the invariant of the machine. -/

namespace Sys2Proof.Safety

open Sys2Proof.Machine

/-! ### Event lists, written out from the rules -/

/-- The seven events of a bit step that samples `b` (R131, R132). -/
def bitStepEvents (outgoing bitpos : Nat) (b : Level) : List Event :=
  [ .drive .dout (if bitpos = 16 then false else outgoing.testBit bitpos), .wait .qBit, .drive .clk false,
    .wait .qBit, .drive .clk true, .sample .din b, .wait .qBit ]

/-- The events of one exchange whose 17 samples are `bits`: bit step `n` carries bit `16 - n` (R91, R131). -/
def exchangeEvents (outgoing : Nat) (bits : List Level) : List Event :=
  (List.range 17).flatMap fun n => bitStepEvents outgoing (16 - n) (bits.getD n false)

/-- The reply as a function of the samples `s0 … s16`: the sum over `j = 1 … 16` of `s_j * 2^(16 - j)` (R138). -/
def replyWord (bits : List Level) : Word :=
  BitVec.ofNat 16 ((List.range 16).map fun j => (bits.getD (j + 1) false).toNat * 2 ^ (15 - j)).sum

/-- The five events of `enterDebugMode` (R151). -/
def enterEvents : List Event :=
  [.drive .clk false, .drive .rstN false, .wait .tDbgAssert, .drive .rstN true, .wait .tDbgRelease]

/-- The seven events of `stop` whose sample is `f` (R155). -/
def stopEvents (f : Level) : List Event := enterEvents ++ [.wait .tStopSettle, .sample .frz f]

/-- The four events of `reset` (R158). -/
def resetEvents : List Event := [.drive .rstN false, .wait .tRstLow, .drive .rstN true, .wait .tRstHigh]

/-! ### States after an operation -/

/-- `bits` are the next levels sampled in `s`: as many of the target's answers as there are come first (R27). -/
def Supplied (s : State) (bits : List Level) : Prop := s.answers.take bits.length <+: bits

/-- The state after one exchange: the lines, the trace and the answers used; nothing else (R131). -/
def afterExchange (s : State) (outgoing : Nat) (bits : List Level) : State :=
  { s with
    pins := { dout := outgoing.testBit 0, clk := true, rstN := s.pins.rstN }
    trace := s.trace ++ exchangeEvents outgoing bits
    answers := s.answers.drop 17 }

/-- The state after several exchanges in order. -/
def afterExchanges (s : State) : List (Nat × List Level) → State
  | [] => s
  | x :: rest => afterExchanges (afterExchange s x.1 x.2) rest

/-- A list of exchanges, each with 17 samples, whose samples are the next ones in `s`. -/
def Exchanged (s : State) (xs : List (Nat × List Level)) : Prop :=
  (∀ x ∈ xs, x.2.length = 17) ∧ Supplied s (xs.flatMap Prod.snd)

/-- The state after `stop`'s seven events (R155). -/
def afterStop (s : State) (f : Level) : State :=
  { s with
    pins := { dout := s.pins.dout, clk := false, rstN := true }
    trace := s.trace ++ stopEvents f
    answers := s.answers.drop 1 }

/-- The state after `reset`'s four events (R158). -/
def afterReset (s : State) : State :=
  { s with
    pins := { dout := s.pins.dout, clk := s.pins.clk, rstN := true }
    trace := s.trace ++ resetEvents }

/-- The state after `isHalted`'s one event (R154). -/
def afterIsHalted (s : State) (f : Level) : State :=
  { s with trace := s.trace ++ [.sample .frz f], answers := s.answers.drop 1 }

/-- The state after the response line `text` (R106, R210, R213): one `tx` of the text and CR LF, `LINEBUF` cleared. -/
def afterResponse (s : State) (text : List Byte) : State :=
  { s with
    trace := s.trace ++ [.tx (text ++ [0x0D#8, 0x0A#8])]
    toHost := s.toHost ++ (text ++ [0x0D#8, 0x0A#8])
    lineBuf := [] }

/-- The state after the direct interface has received a result (R232). -/
def withResult (s : State) (r : Result) : State := { s with results := s.results ++ [r] }

/-- The exchanges of a `readMemory`: for each step the arm-read opcode and the step address, with the samples of both
(R188). -/
def readExchanges (cfg : Config) (address : Addr) (steps : List (List Level × List Level)) : List (Nat × List Level) :=
  steps.zipIdx.flatMap fun x =>
    [(cfg.armReadOpcode.toNat, x.1.1), ((address + BitVec.ofNat 32 (2 * x.2)).toNat, x.1.2)]

/-- The bytes a `readMemory` returns: of the second reply of each step bits 15 to 8, then bits 7 to 0 (R64, R188). -/
def readBytes (steps : List (List Level × List Level)) : List Byte :=
  steps.flatMap fun x => [(replyWord x.2).extractLsb' 8 8, (replyWord x.2).extractLsb' 0 8]

/-- The payload words a `writeMemory` sends after its arm opcodes: `(data[k] << 8) | data[k+1]` for `k = 2 * j` (R192). -/
def dataWord (data : List Byte) (j : Nat) : Word :=
  ((data.getD (2 * j) 0#8).setWidth 16 <<< 8) ||| (data.getD (2 * j + 1) 0#8).setWidth 16

/-- The exchanges of a `writeMemory` (R192). -/
def writeExchanges (cfg : Config) (data : List Byte) (steps : List (List Level × List Level)) : List (Nat × List Level) :=
  steps.zipIdx.flatMap fun x => [(cfg.armWriteOpcode.toNat, x.1.1), ((dataWord data x.2).toNat, x.1.2)]

/-! ### What a trace says -/

/-- Pin events: those of the five lines and the waits between them (R8). -/
def isPinEvent : Event → Bool
  | .drive _ _ => true
  | .wait _ => true
  | .sample _ _ => true
  | .rx _ => false
  | .tx _ => false

/-- An event with the level it sampled blotted out (R45). -/
def withoutLevel : Event → Event
  | .sample p _ => .sample p false
  | .drive p b => .drive p b
  | .wait d => .wait d
  | .rx c => .rx c
  | .tx s => .tx s

/-- The pin events of a trace without the levels sampled (R45). -/
def pinShape (t : List Event) : List Event := (t.filter isPinEvent).map withoutLevel

/-- The latches after an event (R22). -/
def pinsAfter (pins : Pins) : Event → Pins
  | .drive p b => pins.set p b
  | .wait _ => pins
  | .sample _ _ => pins
  | .rx _ => pins
  | .tx _ => pins

/-- The latches after a list of events (R22). -/
def replay (pins : Pins) (t : List Event) : Pins := t.foldl pinsAfter pins

/-- The number of falling edges the clock line shows over a list of events, from a level (R135). -/
def fallingEdges : Level → List Event → Nat
  | _, [] => 0
  | level, .drive .clk b :: rest => (if level && !b then 1 else 0) + fallingEdges b rest
  | level, _ :: rest => fallingEdges level rest

/-- The number of rising edges the clock line shows over a list of events, from a level (R135). -/
def risingEdges : Level → List Event → Nat
  | _, [] => 0
  | level, .drive .clk b :: rest => (if !level && b then 1 else 0) + risingEdges b rest
  | level, _ :: rest => risingEdges level rest

/-- The bytes received since the last terminator (R31). -/
def lineAfter (line : List Byte) : Event → List Byte
  | .rx c => if isTerminator c then [] else line ++ [c]
  | .drive _ _ => line
  | .wait _ => line
  | .sample _ _ => line
  | .tx _ => line

/-- `LINEBUF` as a trace gives it (R31). -/
def lineOf (t : List Event) : List Byte := t.foldl lineAfter []

/-- What an event sends to the host. -/
def sentBy : Event → List Byte
  | .tx s => s
  | .rx _ => []
  | .drive _ _ => []
  | .wait _ => []
  | .sample _ _ => []

/-- Everything a trace sends to the host, in order (R40). -/
def sent (t : List Event) : List Byte := t.flatMap sentBy

/-- The number of lines a trace sends to the host (R213). -/
def txCount (t : List Event) : Nat := (t.filter fun e => !(sentBy e).isEmpty).length

/-- The least duration of an event: a wait lasts its configured time (R323). -/
def eventDuration (cfg : Config) : Event → Nat
  | .wait d => cfg.delay d
  | .drive _ _ => 0
  | .sample _ _ => 0
  | .rx _ => 0
  | .tx _ => 0

/-- The least duration of a list of events (R323). -/
def duration (cfg : Config) (t : List Event) : Nat := (t.map (eventDuration cfg)).sum

/-- Test configuration TC1 of `95_test_vectors.md` section 3, for witnesses and tests only; the durations are stand-ins,
since nothing computes with them. -/
def testConfig : Config where
  readBase := 0x2580#16
  writeBase := 0x2480#16
  goOpcode := 0x0C00#16
  armReadOpcode := 0x1940#16
  armWriteOpcode := 0x1840#16
  qBit := 1
  tDbgAssert := 1
  tDbgRelease := 1
  tStopSettle := 1
  tRstLow := 1
  tRstHigh := 1
  extraSpace := []

/-! ### Hexadecimal text, written out from R104 -/

/-- The value of a digit in one of the two spellings of the sixteen digits. -/
def digitIn (digits : String) (b : Byte) : Option Nat :=
  if b ∈ ascii digits then some ((ascii digits).idxOf b) else none

/-- A hexadecimal digit in either case (R104). -/
def hexDigitOf (b : Byte) : Option Nat := (digitIn "0123456789ABCDEF" b).or (digitIn "0123456789abcdef" b)

/-- A well-formed argument: one or more hexadecimal digits (R104). -/
def isHexText (t : List Byte) : Prop := t ≠ [] ∧ ∀ b ∈ t, (hexDigitOf b).isSome

/-- The number a text spells in base 16, most significant digit first (R104). -/
def hexNumber (t : List Byte) : Nat := Nat.ofDigits 16 (t.reverse.map fun b => (hexDigitOf b).getD 0)

/-! ### The invariant -/

/-- The level of `RST_N` after a list of actions that starts with the line released (R25). -/
def rstAfter : Level → List Action → Level
  | level, [] => level
  | _, .drive .rstN b :: rest => rstAfter b rest
  | level, _ :: rest => rstAfter level rest

/-- A position that an operation in progress can be at: the event index is within the bit step or the line script, `BITPOS`
is 0 to 16, the word is the one the operation sends there (R29, R33). -/
def positionOk (cfg : Config) (p : Position) : Prop :=
  match lineScript p.op with
  | [] => p.event < 7 ∧ p.bitpos ≤ 16 ∧ outgoingAt cfg p.op p.offset p.phase = some p.outgoing
  | a :: rest => p.event < (a :: rest).length

/-- `SEQ` and `RST_N` agree: between operations the target's reset is released (R25), inside an operation it is where the
operation's events so far have left it. -/
def seqOk (s : State) : Prop :=
  match s.seq with
  | .idle => s.pins.rstN = true
  | .responding text => s.pins.rstN = true ∧ text.head? ≠ banner.head?
  | .running _ p => positionOk s.cfg p ∧ s.pins.rstN = rstAfter true ((lineScript p.op).take p.event)

/-- `LINEBUF` holds the bytes received since the last terminator, but that a command in progress has had its terminator
and has not cleared the buffer (R31, R210). -/
def lineOk (s : State) : Prop :=
  match s.seq with
  | .idle => s.lineBuf = lineOf s.trace
  | .running .direct _ => s.lineBuf = lineOf s.trace
  | .running (.verb _) _ => lineOf s.trace = []
  | .responding _ => lineOf s.trace = []

/-- The invariant of the machine. -/
structure Inv (s : State) : Prop where
  /-- The configuration is well formed (R10, R11). -/
  cfg_wf : s.cfg.wf
  /-- Each latch holds the level of the last `drive` of its line, from the power-up levels (R22, R300). Those of
  the clock and the reset are decision D6: log entry 4. -/
  pins_replay : ∃ d, s.pins = replay { dout := d, clk := true, rstN := true } s.trace
  /-- `SEQ` is a position of the operation in progress, and `RST_N` is released between operations (R25, R33). -/
  seq_ok : seqOk s
  /-- `LINEBUF` is what the trace says (R31). -/
  line_ok : lineOk s
  /-- The bytes the host has still to take are the last ones the trace sent (R40). -/
  sent_ok : s.toHost <:+ sent s.trace
  /-- Before the banner nothing has happened (R301). -/
  quiet : s.bannerSent = false → s.trace = [] ∧ s.seq = .idle
  /-- The banner is the first event, and there is no second one (R212). -/
  banner_once : s.bannerSent = true →
    ∃ t, s.trace = .tx (banner ++ crlf) :: t ∧ Event.tx (banner ++ crlf) ∉ t

end Sys2Proof.Safety
end

