-- ==== Sys2Proof/Certificates/Slice0/Obligations.lean ====
section
/-! DEFINITION. The statements for the provers. `exec` answers for one instruction whole; `step` for the machine. -/

open Sys2Proof Sys2Proof.Machine Sys2Proof.Safety

/-! ### Encodings -/

/-- The words the encoder writes for a frame decode back to it, whatever follows (R94, R95, R97, R113). -/
def Obligations.FrameWordsDecodeBack : Prop :=
  ∀ (cfg : Config) (i : Instr) (ws rest : List Word), cfg.wf → cfg.opcodesDistinct →
    encode cfg i = .words ws → decodeFrame cfg (ws ++ rest) = .ok (i, rest)

/-- The line the encoder writes for a command decodes back to it, whatever follows (R100 to R103). -/
def Obligations.RequestLinesDecodeBack : Prop :=
  ∀ (cfg : Config) (i : Instr) (bytes rest : List Byte), i.wf cfg = true →
    encode cfg i = .line bytes → decodeRequest cfg (bytes ++ rest) = .ok (i, rest)

/-- Decoding the encoding of any well-formed instruction gives it back. -/
def Obligations.DecodeEncodeGivesTheInstruction : Prop :=
  ∀ (cfg : Config) (i : Instr), cfg.wf → cfg.opcodesDistinct → i.wf cfg = true →
    decode cfg (encode cfg i) = .ok i

/-- Words and lines written out from the spec's encodings, in configuration TC1, decode to what they stand for. -/
def Obligations.WrittenOutCodesDecode : Prop :=
  decode testConfig (.words [0x25AA#16]) = .ok (.regRead 0x2A#6) ∧
  decode testConfig (.words [0x2485#16, 0x1234#16]) = .ok (.regWrite 0x05#6 0x1234#16) ∧
  decode testConfig (.words [0x0C00#16]) = .ok .go ∧
  decode testConfig (.words [0x1940#16, 0x0004#16]) = .ok (.armRead 0x0004#16) ∧
  decode testConfig (.words [0x1840#16, 0xDEAD#16]) = .ok (.armWrite 0xDEAD#16) ∧
  decode testConfig (.line [0x53#8, 0x54#8, 0x4F#8, 0x50#8, 0x0A#8]) = .ok .cmdStop ∧
  decode testConfig
      (.line [0x52#8, 0x45#8, 0x41#8, 0x44#8, 0x5F#8, 0x52#8, 0x45#8, 0x47#8, 0x20#8, 0x32#8, 0x41#8, 0x0A#8]) =
    .ok (.cmdReadReg [0x32#8, 0x41#8])

/-- R94: for bases with zero operand bits the register opcode word is the base's bits 15 to 6 and the index's bits 5 to
0, for every index, masked and not checked. -/
def Obligations.RegisterOpcodeIsConcatenation : Prop :=
  ∀ (base : Word) (index : Nat), base &&& 0x003F#16 = 0#16 →
    (registerOpcode base index).extractLsb' 6 10 = base.extractLsb' 6 10 ∧
    (registerOpcode base index).extractLsb' 0 6 = BitVec.ofNat 6 index ∧
    registerOpcode base index = base ||| (BitVec.ofNat 16 index &&& 0x003F#16)

/-- R98: a frame's first exchange sends one of the register opcode words or the three fixed words, and each of them is
the first word of some operation's frame. -/
def Obligations.FirstWordsOfFrames : Prop :=
  ∀ (cfg : Config) (w : Nat),
    (∃ op k, (∀ v, op ≠ .transferWord v) ∧ outgoingAt cfg op k .first = some w) ↔
      (∃ i < 64, w = (cfg.readBase ||| BitVec.ofNat 16 i).toNat ∨ w = (cfg.writeBase ||| BitVec.ofNat 16 i).toNat) ∨
      w = cfg.goOpcode.toNat ∨ w = cfg.armReadOpcode.toNat ∨ w = cfg.armWriteOpcode.toNat

/-- R101: the tokens of a line are its maximal runs of non-whitespace bytes: gaps of whitespace between them, before them
and after them leave no trace.
Which bytes beside space and tab split is free: log entry 9. -/
def Obligations.TokensAreTheRunsBetweenGaps : Prop :=
  ∀ (cfg : Config) (lead trail : List Byte) (first : List Byte) (more : List (List Byte × List Byte)),
    lead.all (isSpace cfg) = true → trail.all (isSpace cfg) = true →
    (first ≠ [] ∧ ∀ b ∈ first, isSpace cfg b = false) →
    (∀ x ∈ more, x.1 ≠ [] ∧ x.1.all (isSpace cfg) = true ∧ x.2 ≠ [] ∧ ∀ b ∈ x.2, isSpace cfg b = false) →
    tokens cfg (lead ++ first ++ (more.flatMap fun x => x.1 ++ x.2) ++ trail) = first :: more.map Prod.snd

/-- R102, R103: the first token, case-folded, names the command; `RESET`, `STOP`, `GO`, `STATUS` whatever follows,
`READ_REG` with exactly 2 tokens and `WRITE_REG` with exactly 3; anything else with a token is unknown (R109, R224).
That extra tokens are ignored is decision D18 and that only ASCII letters fold is D32: log entry 10. -/
def Obligations.FirstTokenNamesTheCommand : Prop :=
  ∀ (cfg : Config) (line verb : List Byte) (args : List (List Byte)), tokens cfg line = verb :: args →
    (upper verb = ascii "RESET" → decodeLine cfg line = .cmdReset) ∧
    (upper verb = ascii "STOP" → decodeLine cfg line = .cmdStop) ∧
    (upper verb = ascii "GO" → decodeLine cfg line = .cmdGo) ∧
    (upper verb = ascii "STATUS" → decodeLine cfg line = .cmdStatus) ∧
    (upper verb = ascii "READ_REG" →
      (∀ r, args = [r] → decodeLine cfg line = .cmdReadReg r) ∧
      (args.length ≠ 1 → decodeLine cfg line = .cmdUnknown)) ∧
    (upper verb = ascii "WRITE_REG" →
      (∀ r v, args = [r, v] → decodeLine cfg line = .cmdWriteReg r v) ∧
      (args.length ≠ 2 → decodeLine cfg line = .cmdUnknown)) ∧
    (upper verb ∉ [ascii "RESET", ascii "STOP", ascii "GO", ascii "STATUS", ascii "READ_REG", ascii "WRITE_REG"] →
      decodeLine cfg line = .cmdUnknown)

/-- R100, R109, R226: a line of zero bytes is the empty request; a line that holds only whitespace is the blank one; a
line with any other byte is neither.
The blank line is decision D17: log entry 10. -/
def Obligations.EmptyAndBlankLines : Prop :=
  ∀ (cfg : Config) (line : List Byte),
    (decodeLine cfg line = .cmdEmpty ↔ line = []) ∧
    (decodeLine cfg line = .cmdBlank ↔ line ≠ [] ∧ ∀ b ∈ line, isSpace cfg b = true)

/-- R104: an argument is well formed when it is one or more hexadecimal digits in either case, and its value is the number
they spell; every other token raises `NonHexArgument` (R262).
The grammar is decision D19: log entry 10. -/
def Obligations.HexArgumentsAreHexNumbers : Prop :=
  ∀ t : List Byte,
    (isHexText t → parseHex t = .ok (hexNumber t)) ∧ (¬ isHexText t → parseHex t = .error .nonHexArgument)

/-- R107: a printed value is exactly four upper-case hexadecimal digits that spell it. -/
def Obligations.PrintedValueIsFourUpperCaseDigits : Prop :=
  ∀ v : Word, (hex4 v).length = 4 ∧ (∀ b ∈ hex4 v, b ∈ ascii "0123456789ABCDEF") ∧ hexNumber (hex4 v) = v.toNat

/-! ### The Link Driver -/

/-- R131: from any idle state `transferWord` emits the 119 events of 17 bit steps, returns the reply word, leaves the clock
high and `DOUT` at bit 0 of the operand, and changes nothing else. -/
def Obligations.TransferWordRuns : Prop :=
  ∀ (s : State) (w : Nat), s.seq = .idle →
    ∃ bits, bits.length = 17 ∧ Supplied s bits ∧
      exec (.transferWord w) s = .next (withResult (afterExchange s w bits) (.word (replyWord bits)))

/-- R138: with the 17 levels `s0 … s16` supplied, the result is the sum over `j = 1 … 16` of `s_j * 2^(16 - j)`, so that its
bit `15 - j` is `s(j+1)`; `s0` does not matter. -/
def Obligations.TransferWordReturnsTheSamples : Prop :=
  ∀ (s : State) (w : Nat) (bits more : List Level), s.seq = .idle → bits.length = 17 → s.answers = bits ++ more →
    ∃ t : State, exec (.transferWord w) s = .next t ∧ t.results = s.results ++ [.word (replyWord bits)] ∧
      t.answers = more ∧ (∀ j < 16, (replyWord bits).getLsbD (15 - j) = bits.getD (j + 1) false) ∧
      ∀ b, replyWord (b :: bits.tail) = replyWord bits

/-- R133: one exchange emits 119 events, 17 of each drive and of the sample and 51 waits of `Q_BIT`; the clock drives are 17
pulses, low then high; whatever is sent and sampled; and the clock is high afterwards. -/
def Obligations.ExchangeEventCounts : Prop :=
  ∀ (s t : State) (w : Nat), exec (.transferWord w) s = .next t →
    ∃ es, t.trace = s.trace ++ es ∧ es.length = 119 ∧
      (es.filter fun e => e == .drive .dout false || e == .drive .dout true).length = 17 ∧
      (es.filter fun e => e == .drive .clk false || e == .drive .clk true) =
        (List.replicate 17 [Event.drive .clk false, Event.drive .clk true]).flatten ∧
      (es.filter fun e => e == .sample .din false || e == .sample .din true).length = 17 ∧
      es.count (.wait .qBit) = 51 ∧ t.pins.clk = true

/-- R135: entered with the clock low an exchange shows 16 falling and 17 rising edges; entered with it high, 17 of each; the
number of events is the same. -/
def Obligations.ExchangeClockEdges : Prop :=
  ∀ (s t : State) (w : Nat), exec (.transferWord w) s = .next t →
    ∃ es, t.trace = s.trace ++ es ∧ es.length = 119 ∧
      fallingEdges s.pins.clk es = (if s.pins.clk then 17 else 16) ∧ risingEdges s.pins.clk es = 17

/-- R92: only bits 15 to 0 of the caller's value are looked at. -/
def Obligations.OnlySixteenBitsAreSent : Prop :=
  ∀ (s : State) (w : Nat), exec (.transferWord w) s = exec (.transferWord (w % 65536)) s

/-- R137: the status/sync bit changes neither the result nor the events (but for the one level sampled first) nor any later
state. -/
def Obligations.StatusBitChangesNothing : Prop :=
  ∀ (s : State) (w : Nat) (b c : Level) (more : List Level), s.seq = .idle → 16 ≤ more.length →
    ∃ t u, exec (.transferWord w) { s with answers := b :: more } = .next t ∧
      exec (.transferWord w) { s with answers := c :: more } = .next u ∧
      t.trace = s.trace ++ exchangeEvents w (b :: more.take 16) ∧
      u.trace = s.trace ++ exchangeEvents w (c :: more.take 16) ∧ t = { u with trace := t.trace }

/-! ### The Mode Controller -/

/-- R151: `enterDebugMode` emits its five events in order and leaves the clock low and the reset released.
That the clock ends low, and that the first two events are adjacent, are decisions D14 and D4: log entry 16. -/
def Obligations.EnterDebugModeRuns : Prop :=
  ∀ s : State, s.seq = .idle →
    exec .enterDebugMode s =
      .next (withResult
        { s with
          pins := { dout := s.pins.dout, clk := false, rstN := true }
          trace := s.trace ++ [.drive .clk false, .drive .rstN false, .wait .tDbgAssert, .drive .rstN true,
            .wait .tDbgRelease] } .void)

/-- R154: `isHalted` samples `FRZ` once, returns whether it is high, and changes no line. -/
def Obligations.IsHaltedRuns : Prop :=
  ∀ s : State, s.seq = .idle →
    ∃ f, Supplied s [f] ∧ exec .isHalted s = .next (withResult (afterIsHalted s f) (.flag f))

/-- R155: `stop` emits the events of `enterDebugMode`, one more wait and one sample, and returns that sample.
The clock left low is decision D14 (log entry 16); the single sample without a second try is D12 (log entry 32). -/
def Obligations.StopRuns : Prop :=
  ∀ s : State, s.seq = .idle →
    ∃ f, Supplied s [f] ∧ exec .stop s = .next (withResult (afterStop s f) (.flag f))

/-- R158, R159: `reset` pulses `RST_N` low then high with a wait after each edge and drives no other line.
The two waits are decision D3, and that no other line is driven is D35: log entry 15. -/
def Obligations.ResetPulseRuns : Prop :=
  ∀ s : State, s.seq = .idle → exec .reset s = .next (withResult (afterReset s) .void)

/-- R160: `resume`, and frame GO alone, are one exchange of `GO_OPCODE`; the reply is discarded.
R160 speaks of `resume`; that the frame can be asked for alone is the model's choice: log entry 17. -/
def Obligations.ResumeRuns : Prop :=
  ∀ (s : State) (i : Instr), s.seq = .idle → (i = .resume ∨ i = .go) →
    ∃ bits, bits.length = 17 ∧ Supplied s bits ∧
      exec i s = .next (withResult (afterExchange s s.cfg.goOpcode.toNat bits) .void)

/-- R24: whatever instruction runs, it leaves the clock high if it made an exchange, low if it entered debug mode, and
alone otherwise.
That debug entry leaves it low is decision D14: log entry 16. -/
def Obligations.ClockIsHighAfterEveryExchange : Prop :=
  ∀ (i : Instr) (s t : State), exec i s = .next t →
    ∃ es, t.trace = s.trace ++ es ∧
      ((∃ b, Event.sample .din b ∈ es) → t.pins.clk = true) ∧
      ((∀ b, Event.sample .din b ∉ es) → Event.drive .clk false ∈ es →
        t.pins.clk = false ∧ i ∈ [Instr.enterDebugMode, Instr.stop, Instr.cmdStop]) ∧
      ((∀ b, Event.sample .din b ∉ es) → Event.drive .clk false ∉ es → t.pins.clk = s.pins.clk)

/-- R25: `RST_N` is written by `enterDebugMode` and by `reset` only, as operations or inside `STOP` and `RESET`, and
both leave it released. -/
def Obligations.ResetLineIsReleasedAgain : Prop :=
  ∀ (i : Instr) (s t : State), exec i s = .next t →
    ∃ es, t.trace = s.trace ++ es ∧
      ((∃ b, Event.drive .rstN b ∈ es) →
        i ∈ [Instr.enterDebugMode, Instr.stop, Instr.cmdStop, Instr.reset, Instr.cmdReset] ∧ t.pins.rstN = true) ∧
      ((∀ b, Event.drive .rstN b ∉ es) → t.pins.rstN = s.pins.rstN)

/-- R23, R26, R27: whatever instruction runs, `DOUT` is driven once for each sample of `DIN` and keeps its level where there
is none; `FRZ` is sampled once by `isHalted` and `stop`, as operations or inside `STATUS` and `STOP`, and by nothing else. -/
def Obligations.DataLinesBelongToTheExchange : Prop :=
  ∀ (i : Instr) (s t : State), exec i s = .next t →
    ∃ es, t.trace = s.trace ++ es ∧
      (es.filter fun e => e == .drive .dout false || e == .drive .dout true).length =
        (es.filter fun e => e == .sample .din false || e == .sample .din true).length ∧
      ((∀ b, Event.sample .din b ∉ es) → t.pins.dout = s.pins.dout) ∧
      (es.filter fun e => e == .sample .frz false || e == .sample .frz true).length =
        (if i ∈ [Instr.isHalted, Instr.stop, Instr.cmdStop, Instr.cmdStatus] then 1 else 0)

/-! ### The Access Layer -/

/-- R181: `readRegister`, for any index, is one exchange of its opcode word and returns that exchange's reply. -/
def Obligations.ReadRegisterRuns : Prop :=
  ∀ (s : State) (index : Nat), s.seq = .idle →
    ∃ bits, bits.length = 17 ∧ Supplied s bits ∧
      exec (.readRegister index) s =
        .next (withResult
          (afterExchange s (s.cfg.readBase ||| (BitVec.ofNat 16 index &&& 0x003F#16)).toNat bits)
          (.word (replyWord bits)))

/-- R184: `writeRegister`, for any operands, is an exchange of its opcode word and then one of the value; both replies are
ignored. -/
def Obligations.WriteRegisterRuns : Prop :=
  ∀ (s : State) (index value : Nat), s.seq = .idle →
    ∃ a b, Exchanged s
        [((s.cfg.writeBase ||| (BitVec.ofNat 16 index &&& 0x003F#16)).toNat, a), (value, b)] ∧
      exec (.writeRegister index value) s =
        .next (withResult
          (afterExchanges s
            [((s.cfg.writeBase ||| (BitVec.ofNat 16 index &&& 0x003F#16)).toNat, a), (value, b)]) .void)

/-- R188: `readMemory` makes `floor(length / 2)` steps, each an exchange of the arm-read opcode and one of the step
address, and returns the second replies' bytes, high byte first.
The `floor` at an odd length is decision D10 (log entry 12); the one address word, of which 16 bits reach the line, is
deduced, D8 and D9 (log entry 14). -/
def Obligations.ReadMemoryRuns : Prop :=
  ∀ (s : State) (address : Addr) (length : Nat), s.seq = .idle →
    ∃ steps, steps.length = length / 2 ∧ Exchanged s (readExchanges s.cfg address steps) ∧
      exec (.readMemory address length) s =
        .next (withResult (afterExchanges s (readExchanges s.cfg address steps)) (.bytes (readBytes steps)))

/-- R192: `writeMemory` makes `floor(len(data) / 2)` steps, each an exchange of the arm-write opcode and one of the
big-endian word of two bytes; no address is sent.
That no address is sent is decision D11 (log entry 13); the `floor` at an odd length is D10 (log entry 12). -/
def Obligations.WriteMemoryRuns : Prop :=
  ∀ (s : State) (address : Addr) (data : List Byte), s.seq = .idle →
    ∃ steps, steps.length = data.length / 2 ∧ Exchanged s (writeExchanges s.cfg data steps) ∧
      exec (.writeMemory address data) s =
        .next (withResult (afterExchanges s (writeExchanges s.cfg data steps)) .void)

/-- R97: the four register and memory frames alone: what each sends, and what it keeps of the replies.
That a frame can be asked for alone is the model's choice: log entry 17. -/
def Obligations.FramesRunAlone : Prop :=
  ∀ (s : State) (idx : BitVec 6) (w : Word), s.seq = .idle →
    (∃ bits, Exchanged s [((s.cfg.readBase ||| idx.setWidth 16).toNat, bits)] ∧
      exec (.regRead idx) s =
        .next (withResult (afterExchanges s [((s.cfg.readBase ||| idx.setWidth 16).toNat, bits)])
          (.word (replyWord bits)))) ∧
    (∃ a b, Exchanged s [((s.cfg.writeBase ||| idx.setWidth 16).toNat, a), (w.toNat, b)] ∧
      exec (.regWrite idx w) s =
        .next (withResult (afterExchanges s [((s.cfg.writeBase ||| idx.setWidth 16).toNat, a), (w.toNat, b)]) .void)) ∧
    (∃ a b, Exchanged s [(s.cfg.armReadOpcode.toNat, a), (w.toNat, b)] ∧
      exec (.armRead w) s =
        .next (withResult (afterExchanges s [(s.cfg.armReadOpcode.toNat, a), (w.toNat, b)])
          (.bytes [(replyWord b).extractLsb' 8 8, (replyWord b).extractLsb' 0 8]))) ∧
    (∃ a b, Exchanged s [(s.cfg.armWriteOpcode.toNat, a), (w.toNat, b)] ∧
      exec (.armWrite w) s =
        .next (withResult (afterExchanges s [(s.cfg.armWriteOpcode.toNat, a), (w.toNat, b)]) .void))

/-- R60, R185: an index reaches the target modulo 64 and a value modulo 65536; nothing tells. -/
def Obligations.IndexAndValueWrap : Prop :=
  ∀ (s : State) (index value : Nat),
    exec (.readRegister index) s = exec (.readRegister (index % 64)) s ∧
    exec (.writeRegister index value) s = exec (.writeRegister (index % 64) (value % 65536)) s

/-- R62, R193: bits 31 to 16 of a `readMemory` address have no effect on any line, and the whole address of a
`writeMemory` has none.
That a read sends one address word, of which 16 bits reach the line, is deduced, D8 and D9 (log entry 14); that
`writeMemory` sends no address is decision D11 (log entry 13). -/
def Obligations.HighAddressBitsAreNotSent : Prop :=
  ∀ (s : State) (a b : Addr) (length : Nat) (data : List Byte),
    (a.setWidth 16 = b.setWidth 16 → exec (.readMemory a length) s = exec (.readMemory b length) s) ∧
    exec (.writeMemory a data) s = exec (.writeMemory b data) s

/-- R67: an odd last byte is neither read nor sent; an access of length 0 or 1 emits nothing and `readMemory` then returns
the empty sequence.
This is decision D10: log entry 12. -/
def Obligations.OddLastByteIsDropped : Prop :=
  ∀ (s : State) (a : Addr) (n : Nat) (data : List Byte) (last : Byte),
    exec (.readMemory a (2 * n + 1)) s = exec (.readMemory a (2 * n)) s ∧
    (data.length % 2 = 0 → exec (.writeMemory a (data ++ [last])) s = exec (.writeMemory a data) s) ∧
    (s.seq = .idle →
      exec (.readMemory a 0) s = .next (withResult s (.bytes [])) ∧
      exec (.readMemory a 1) s = .next (withResult s (.bytes [])) ∧
      exec (.writeMemory a []) s = .next (withResult s .void) ∧
      exec (.writeMemory a [last]) s = .next (withResult s .void))

/-- R186, S1: against the echo target of `95_test_vectors.md` section 4, halted and with nothing pending,
`writeRegister(i, v)` and then `readRegister(i)` returns `v`.
The echo target is a fixture: log entry 28. -/
def Obligations.RegisterRoundTripAgainstTheEchoTarget : Prop :=
  ∀ (s : State) (e : EchoTarget.Target) (i : Nat) (v : Word) (more : List Level), s.seq = .idle →
    s.cfg.wf → s.cfg.readBase ≠ s.cfg.writeBase → e.halted = true → e.pend = .none → e.regs.length = 64 → i < 64 →
    s.answers =
      EchoTarget.answers s.cfg e [registerOpcode s.cfg.writeBase i, v, registerOpcode s.cfg.readBase i] ++ more →
    ∃ t u, exec (.writeRegister i v.toNat) s = .next t ∧ exec (.readRegister i) t = .next u ∧
      u.results = s.results ++ [.void, .word v] ∧ u.answers = more

/-! ### The command port: the verbs -/

/-- R216: `RESET` runs `reset` and answers `OK: CPU reset`.
The two waits are decision D3, and that no other line is driven is D35: log entry 15. -/
def Obligations.ResetVerbRuns : Prop :=
  ∀ s : State, s.seq = .idle → exec .cmdReset s = .next (afterResponse (afterReset s) (ascii "OK: CPU reset"))

/-- R217: `STOP` runs `stop` and answers by its one sample.
The clock left low is decision D14 (log entry 16); the single sample is D12 (log entry 32). -/
def Obligations.StopVerbRuns : Prop :=
  ∀ s : State, s.seq = .idle →
    ∃ f, Supplied s [f] ∧
      exec .cmdStop s =
        .next (afterResponse (afterStop s f)
          (if f then ascii "OK: CPU halted in BDM" else ascii "ERROR: Failed to halt CPU"))

/-- R218: `GO` runs `resume` and answers `OK: CPU resumed`, whatever the target replied. -/
def Obligations.GoVerbRuns : Prop :=
  ∀ s : State, s.seq = .idle →
    ∃ bits, bits.length = 17 ∧ Supplied s bits ∧
      exec .cmdGo s =
        .next (afterResponse (afterExchange s s.cfg.goOpcode.toNat bits) (ascii "OK: CPU resumed"))

/-- R219: `STATUS` samples `FRZ` once and answers `HALTED` or `RUNNING`. -/
def Obligations.StatusVerbRuns : Prop :=
  ∀ s : State, s.seq = .idle →
    ∃ f, Supplied s [f] ∧
      exec .cmdStatus s = .next (afterResponse (afterIsHalted s f) (if f then ascii "HALTED" else ascii "RUNNING"))

/-- R222: `READ_REG` with a hexadecimal argument reads the register and answers with the argument as typed and the value
in four digits.
The echo as typed is decision D20: log entry 10. -/
def Obligations.ReadRegVerbRuns : Prop :=
  ∀ (s : State) (reg : List Byte), s.seq = .idle → isHexText reg →
    ∃ bits, bits.length = 17 ∧ Supplied s bits ∧
      exec (.cmdReadReg reg) s =
        .next (afterResponse
          (afterExchange s (s.cfg.readBase ||| (BitVec.ofNat 16 (hexNumber reg) &&& 0x003F#16)).toNat bits)
          (ascii "REG " ++ reg ++ ascii " = 0x" ++ hex4 (replyWord bits)))

/-- R223: `WRITE_REG` with two hexadecimal arguments, the second at most 0xFFFF, writes the register and answers with what
was sent.
The echo as typed is decision D20: log entry 10. -/
def Obligations.WriteRegVerbRuns : Prop :=
  ∀ (s : State) (reg val : List Byte), s.seq = .idle → isHexText reg → isHexText val → hexNumber val ≤ 0xFFFF →
    ∃ a b, Exchanged s
        [((s.cfg.writeBase ||| (BitVec.ofNat 16 (hexNumber reg) &&& 0x003F#16)).toNat, a), (hexNumber val, b)] ∧
      exec (.cmdWriteReg reg val) s =
        .next (afterResponse
          (afterExchanges s
            [((s.cfg.writeBase ||| (BitVec.ofNat 16 (hexNumber reg) &&& 0x003F#16)).toNat, a), (hexNumber val, b)])
          (ascii "REG " ++ reg ++ ascii " <- 0x" ++ hex4 (BitVec.ofNat 16 (hexNumber val))))

/-- R105: a second argument above 0xFFFF still runs: the low 16 bits are sent, and the printed form, which the spec leaves
open, is some printable text. The model's choice of a free text is log entry 8.
The register token is echoed as typed by decision D20 (R108, R223): log entry 10. -/
def Obligations.WideValueIsSentTruncated : Prop :=
  ∀ (s : State) (reg val : List Byte), s.seq = .idle → isHexText reg → isHexText val → 0xFFFF < hexNumber val →
    ∃ a b text, Exchanged s
        [((s.cfg.writeBase ||| (BitVec.ofNat 16 (hexNumber reg) &&& 0x003F#16)).toNat, a),
          (hexNumber val % 65536, b)] ∧
      (∀ c ∈ text, isPrintable c = true) ∧
      exec (.cmdWriteReg reg val) s =
        .next { afterResponse
          (afterExchanges s
            [((s.cfg.writeBase ||| (BitVec.ofNat 16 (hexNumber reg) &&& 0x003F#16)).toNat, a),
              (hexNumber val % 65536, b)])
          (ascii "REG " ++ reg ++ ascii " <- 0x" ++ text) with texts := s.texts.tail }

/-- R220, R225, R262, R265: a non-hex argument is caught before any pin event and reported; only `LINEBUF` is cleared.
Which tokens are hexadecimal is the narrow grammar of decision D19 (log entry 10), by which tokens such as `0x2A`, `+2A` and
`2_A` raise too; the message is a free text (log entry 7). -/
def Obligations.NonHexArgumentIsCaught : Prop :=
  ∀ (s : State) (i : Instr), s.seq = .idle →
    ((∃ reg, i = .cmdReadReg reg ∧ ¬ isHexText reg) ∨
      (∃ reg val, i = .cmdWriteReg reg val ∧ ¬ (isHexText reg ∧ isHexText val))) →
    ∃ message, (∀ b ∈ message, isTerminator b = false) ∧
      exec i s =
        .next { afterResponse s (ascii "ERROR: Exception " ++ message) with texts := s.texts.tail }

/-- R109, R224, R226: an unknown line and a blank one get the one error response and have no other effect.
For the blank line this is decision D17: log entry 10. -/
def Obligations.UnknownAndBlankLinesAreAnswered : Prop :=
  ∀ (s : State) (i : Instr), s.seq = .idle → (i = .cmdUnknown ∨ i = .cmdBlank) →
    exec i s = .next (afterResponse s (ascii "ERROR: Unknown or malformed command"))

/-- R211: an empty request produces nothing: no response, no pin event, no state change; two bare terminators are read and
leave nothing else; a request ended by CR LF or LF CR is answered once, at the first of the two: one `tx` of one line, after
pin events only (R213).
That the response is one `tx` after the last pin event is decision D26 (log entry 33); that a blank line is answered is D17
(log entry 10). -/
def Obligations.EmptyRequestDoesNothing : Prop :=
  (∀ s : State, s.seq = .idle → exec .cmdEmpty s = .next s) ∧
  ∀ (s : State) (c d : Byte) (rest : List Byte), s.seq = .idle → s.bannerSent = true → s.requests = [] →
    isTerminator c = true → isTerminator d = true → s.fromHost = c :: d :: rest →
    (s.lineBuf = [] →
      Host.Core.run core 2 s = .next { s with fromHost := rest, trace := s.trace ++ [.rx c, .rx d] }) ∧
    (s.lineBuf ≠ [] →
      ∃ n t es text, Host.Core.run core n s = .next t ∧ t.seq = .idle ∧
        t.trace = s.trace ++ .rx c :: es ++ [.tx (text ++ [0x0D#8, 0x0A#8])] ∧ (∀ e ∈ es, isPinEvent e = true) ∧
        (∀ x ∈ text, isTerminator x = false) ∧ txCount t.trace = txCount s.trace + 1 ∧
        t.toHost = s.toHost ++ (text ++ [0x0D#8, 0x0A#8]) ∧ t.lineBuf = [] ∧
        step t = .next { t with fromHost := rest, trace := t.trace ++ [.rx d] })

/-! ### The machine -/

/-- R232: an instruction is accepted exactly when `SEQ = IDLE`, whatever it is.
R232 says so of the ten operations; that `exec` refuses every row by the name `operationInProgress` is the model's
choice: log entry 31. -/
def Obligations.AcceptedExactlyWhenIdle : Prop :=
  ∀ (i : Instr) (s : State),
    (s.seq = .idle → ∃ t, exec i s = .next t) ∧ (s.seq ≠ .idle → exec i s = .refused .operationInProgress)

/-- R210, R215, R33: a step that takes a terminator emits its `rx` event and is then at the first event of the command of
the line in `LINEBUF`; the steps after it, one for each further event, end in the state `exec` answers for that command. A
step that takes any other byte appends it; nothing else changes.
That every other byte is appended, to a buffer without bound, is decision D23: log entry 24. -/
def Obligations.StepRunsTheRequestLine : Prop :=
  ∀ (s : State) (c : Byte) (rest : List Byte),
    s.seq = .idle → s.bannerSent = true → s.requests = [] → s.fromHost = c :: rest →
    (isTerminator c = true →
      step s =
        .next (({ s with fromHost := rest, trace := s.trace ++ [.rx c] } : State).start (decodeLine s.cfg s.lineBuf)) ∧
      ∀ t, exec (decodeLine s.cfg s.lineBuf) { s with fromHost := rest, trace := s.trace ++ [.rx c] } = .next t →
        Host.Core.run core (t.trace.length - s.trace.length) s = .next t) ∧
    (isTerminator c = false →
      step s = .next { s with fromHost := rest, trace := s.trace ++ [.rx c], lineBuf := s.lineBuf ++ [c] })

/-- R232, R33: a step that takes a direct request whose code decodes to an instruction takes the request off the queue and
emits the first event of the instruction, where it has one; the steps after it, one for each further event, end in the
state `exec` answers for that instruction. That direct requests go before bytes is the model's choice (log entry 11), and so
is the request for a frame alone (log entry 17): R232 speaks of the ten operations. -/
def Obligations.StepRunsTheDirectRequest : Prop :=
  ∀ (s : State) (r : Request) (rest : List Request) (i : Instr),
    s.seq = .idle → s.bannerSent = true → s.requests = r :: rest → decode s.cfg r.code = .ok i →
    step s = .next (({ s with requests := rest } : State).start i).tick ∧
    ∀ t, exec i { s with requests := rest } = .next t →
      Host.Core.run core (max 1 (t.trace.length - s.trace.length)) s = .next t

/-- R212, R301, R271: before the banner a step emits it, once, before anything else; with nothing to read `rx` blocks and
nothing changes.
That the banner comes before any other event is decision D34 (log entry 33); that a blocked `rx` is a step that changes
nothing is the model's choice (log entry 22). -/
def Obligations.BannerFirstThenWait : Prop :=
  ∀ s : State, s.seq = .idle →
    (s.bannerSent = false →
      step s = .next { s with
        bannerSent := true
        lineBuf := []
        trace := s.trace ++ [.tx (ascii "MC68332 BDM MicroPython Interface Ready" ++ [0x0D#8, 0x0A#8])]
        toHost := s.toHost ++ (ascii "MC68332 BDM MicroPython Interface Ready" ++ [0x0D#8, 0x0A#8]) }) ∧
    (s.bannerSent = true → s.requests = [] → s.fromHost = [] → step s = .next s)

/-- R100, R210: bytes without a terminator and then one terminator, one step each, lead to the first event of the command of
the line they spell; one step for each further event leads to the state `exec` answers for it. -/
def Obligations.WholeLineRunsItsCommand : Prop :=
  ∀ (s : State) (line rest : List Byte) (c : Byte),
    s.seq = .idle → s.bannerSent = true → s.requests = [] → s.lineBuf = [] →
    (∀ b ∈ line, isTerminator b = false) → isTerminator c = true → s.fromHost = line ++ c :: rest →
    let u : State := { s with fromHost := rest, lineBuf := line, trace := s.trace ++ (line ++ [c]).map Event.rx }
    Host.Core.run core (line.length + 1) s = .next (u.start (decodeLine s.cfg line)) ∧
    ∀ t, exec (decodeLine s.cfg line) u = .next t →
      Host.Core.run core (t.trace.length - s.trace.length) s = .next t

/-- R213: a non-empty line is answered by exactly one `tx`, after the last pin event of its operation; `LINEBUF` is then
empty and `SEQ` is `IDLE` (R229).
That the response is one `tx` after the last pin event, and that the buffer is cleared after it, is decision D26 (log entry
33); that a blank line is answered at all is D17 (log entry 10). -/
def Obligations.OneResponsePerLine : Prop :=
  ∀ (s t : State) (line : List Byte), line ≠ [] → exec (decodeLine s.cfg line) s = .next t →
    ∃ es text, t.trace = s.trace ++ es ++ [.tx (text ++ [0x0D#8, 0x0A#8])] ∧ (∀ e ∈ es, isPinEvent e = true) ∧
      t.toHost = s.toHost ++ (text ++ [0x0D#8, 0x0A#8]) ∧ t.lineBuf = [] ∧ t.seq = .idle

/-- R233: a response that reports no exception holds only printable bytes, when the argument tokens it echoes are
hexadecimal text. -/
def Obligations.ResponsesArePrintable : Prop :=
  ∀ (s t : State) (i : Instr) (es : List Event) (text : List Byte), exec i s = .next t →
    ((∃ reg, i = .cmdReadReg reg ∧ isHexText reg) ∨
      (∃ reg val, i = .cmdWriteReg reg val ∧ isHexText reg ∧ isHexText val) ∨
      i ∈ [Instr.cmdReset, Instr.cmdStop, Instr.cmdGo, Instr.cmdStatus, Instr.cmdUnknown, Instr.cmdBlank]) →
    t.trace = s.trace ++ es ++ [.tx (text ++ [0x0D#8, 0x0A#8])] → ∀ b ∈ text, isPrintable b = true

/-- R45: the pin events of an instruction, their waits and its end levels depend on no sampled level and on no open text,
only on the instruction, the configuration and the levels it starts from.
That no verb looks at the target first is decision D33, and that `stop` does not poll is D12: log entry 32. -/
def Obligations.PinEventsDependOnNoSample : Prop :=
  ∀ (i : Instr) (s t u : State) (answers : List Level) (texts : List (List Byte)),
    exec i s = .next t → exec i { s with answers := answers, texts := texts } = .next u →
    pinShape t.trace = pinShape u.trace ∧ t.pins = u.pins ∧ t.lineBuf = u.lineBuf

/-- R33: every step emits at most one event, so `SEQ` advances by one event per step; a step of an operation in progress emits
exactly one and never stops. -/
def Obligations.BusyStepEmitsOneEvent : Prop :=
  (∀ s t : State, step s = .next t → t.trace = s.trace ∨ ∃ e, t.trace = s.trace ++ [e]) ∧
  ∀ s : State, s.seq ≠ .idle → (∀ who p, s.seq = .running who p → positionOk s.cfg p) →
    ∃ e t, step s = .next t ∧ t.trace = s.trace ++ [e]

/-- Stepping through an instruction event by event, from the state in which it is about to emit its first event, ends
after as many steps as it has events in exactly the state `exec` answers (R33, R45, R230). -/
def Obligations.EventByEventRunIsExec : Prop :=
  ∀ (i : Instr) (s t : State), s.seq = .idle → exec i s = .next t →
    Host.Core.run core (t.trace.length - s.trace.length) (s.start i) = .next t

/-- R35: no step changes the configuration. -/
def Obligations.ConfigurationNeverChanges : Prop :=
  ∀ s t : State, step s = .next t → t.cfg = s.cfg

/-- R229, R325: a step answers a next state from every state in which no frame request waits; and from every state at all
finitely many steps, none of which stops, lead to one in which nothing is in progress. A frame request that is no frame is
refused: log entry 17. -/
def Obligations.EveryStateTakesAFurtherStep : Prop :=
  (∀ s : State, (∀ r ∈ s.requests, ∃ o, r = .op o) → ∃ t, step s = .next t) ∧
  ∀ s : State, ∃ n t, Host.Core.run core n s = .next t ∧ t.seq = .idle

/-- R323: the least durations of the operations are the sums of the named delays of the table.
The two waits of `reset` are decision D3 (log entry 15); that debug entry has no wait between its first two events is D4
(log entry 16); the `floor` at an odd length is D10 (log entry 12); the missing address exchange of `writeMemory` is D11 (log
entry 13); the one address exchange of a read step is deduced, D8 (log entry 14). -/
def Obligations.DurationsAreSumsOfDelays : Prop :=
  ∀ (i : Instr) (s t : State), exec i s = .next t →
    ∃ es, t.trace = s.trace ++ es ∧
      ((∃ w, i = .transferWord w) → duration s.cfg es = 51 * s.cfg.qBit) ∧
      (i = .enterDebugMode → duration s.cfg es = s.cfg.tDbgAssert + s.cfg.tDbgRelease) ∧
      (i = .isHalted → duration s.cfg es = 0) ∧
      (i = .stop → duration s.cfg es = s.cfg.tDbgAssert + s.cfg.tDbgRelease + s.cfg.tStopSettle) ∧
      (i = .reset → duration s.cfg es = s.cfg.tRstLow + s.cfg.tRstHigh) ∧
      (i = .resume → duration s.cfg es = 51 * s.cfg.qBit) ∧
      ((∃ n, i = .readRegister n) → duration s.cfg es = 51 * s.cfg.qBit) ∧
      ((∃ n v, i = .writeRegister n v) → duration s.cfg es = 102 * s.cfg.qBit) ∧
      (∀ a n, i = .readMemory a n → duration s.cfg es = 102 * (n / 2) * s.cfg.qBit) ∧
      (∀ a d, i = .writeMemory a d → duration s.cfg es = 102 * (d.length / 2) * s.cfg.qBit)

/-- R300, R302, R304: after power-up the clock is high, the reset is released, the buffer and both queues are empty, the
banner is not sent and `SEQ` is at the start; a power-cycle brings all of that back and keeps the configuration.
The levels of the clock and the reset are decision D6: log entry 4. -/
def Obligations.PowerUpState : Prop :=
  ∀ (s : State) (dout : Level),
    let t := s.powerCycle dout
    t.cfg = s.cfg ∧ t.pins.clk = true ∧ t.pins.rstN = true ∧ t.lineBuf = [] ∧ t.bannerSent = false ∧ t.fromHost = [] ∧
      t.toHost = [] ∧ t.seq = .idle ∧ t.trace = [] ∧
    (State.reset.pins.clk = true ∧ State.reset.pins.rstN = true ∧ State.reset.lineBuf = [] ∧
      State.reset.bannerSent = false ∧ State.reset.fromHost = [] ∧ State.reset.toHost = [] ∧
      State.reset.seq = .idle ∧ State.reset.trace = [])

/-- Every step keeps the invariant: the latches are what the trace drove, `LINEBUF` is what was received, the banner is
sent once and first, the reset is released between operations, `SEQ` is a position of its operation, the configuration
stays well formed.
That nothing precedes the banner is decision D34 (log entry 33); that `LINEBUF` keeps every byte is D23 (log entry 24); that
the queues lose nothing is D25 (log entry 23); that the latches start with the clock and the reset high is D6 (log entry 4);
that a well-formed configuration has zero operand bits in its bases is D1 (log entry 1), and positive delays D2 (log entry
2). -/
def Obligations.StepKeepsTheInvariant : Prop :=
  ∀ s t : State, Inv s → step s = .next t → Inv t

/-- The state after power-up meets the invariant.
That the clock and the reset are high there, as the invariant asks of the latches and of `SEQ`, is decision D6 (R300): log
entry 4. That nothing precedes the banner is D34 (log entry 33); that the configuration is built with zero operand bits in
its bases is D1 (log entry 1), and with positive delays D2 (log entry 2). -/
def Obligations.ResetMeetsTheInvariant : Prop := Inv State.reset
end

