-- ==== Sys2Proof/Laws/State.lean ====
section
/-! SUPPORT. What each named update of the state does to each field: one lemma per field and update. -/

namespace Sys2Proof.Machine

@[simp] theorem State.emit_cfg (s : State) (e : Event) : (s.emit e).cfg = s.cfg := rfl
@[simp] theorem State.emit_pins (s : State) (e : Event) : (s.emit e).pins = s.pins := rfl
@[simp] theorem State.emit_seq (s : State) (e : Event) : (s.emit e).seq = s.seq := rfl
@[simp] theorem State.emit_lineBuf (s : State) (e : Event) : (s.emit e).lineBuf = s.lineBuf := rfl
@[simp] theorem State.emit_bannerSent (s : State) (e : Event) : (s.emit e).bannerSent = s.bannerSent := rfl
@[simp] theorem State.emit_fromHost (s : State) (e : Event) : (s.emit e).fromHost = s.fromHost := rfl
@[simp] theorem State.emit_toHost (s : State) (e : Event) : (s.emit e).toHost = s.toHost := rfl
@[simp] theorem State.emit_requests (s : State) (e : Event) : (s.emit e).requests = s.requests := rfl
@[simp] theorem State.emit_results (s : State) (e : Event) : (s.emit e).results = s.results := rfl
@[simp] theorem State.emit_trace (s : State) (e : Event) : (s.emit e).trace = s.trace ++ [e] := rfl
@[simp] theorem State.emit_answers (s : State) (e : Event) : (s.emit e).answers = s.answers := rfl
@[simp] theorem State.emit_texts (s : State) (e : Event) : (s.emit e).texts = s.texts := rfl

@[simp] theorem State.drive_cfg (s : State) (p : OutLine) (b : Level) : (s.drive p b).cfg = s.cfg := rfl
@[simp] theorem State.drive_pins (s : State) (p : OutLine) (b : Level) : (s.drive p b).pins = s.pins.set p b := rfl
@[simp] theorem State.drive_seq (s : State) (p : OutLine) (b : Level) : (s.drive p b).seq = s.seq := rfl
@[simp] theorem State.drive_lineBuf (s : State) (p : OutLine) (b : Level) : (s.drive p b).lineBuf = s.lineBuf := rfl
@[simp] theorem State.drive_bannerSent (s : State) (p : OutLine) (b : Level) : (s.drive p b).bannerSent = s.bannerSent := rfl
@[simp] theorem State.drive_fromHost (s : State) (p : OutLine) (b : Level) : (s.drive p b).fromHost = s.fromHost := rfl
@[simp] theorem State.drive_toHost (s : State) (p : OutLine) (b : Level) : (s.drive p b).toHost = s.toHost := rfl
@[simp] theorem State.drive_requests (s : State) (p : OutLine) (b : Level) : (s.drive p b).requests = s.requests := rfl
@[simp] theorem State.drive_results (s : State) (p : OutLine) (b : Level) : (s.drive p b).results = s.results := rfl
@[simp] theorem State.drive_trace (s : State) (p : OutLine) (b : Level) : (s.drive p b).trace = s.trace ++ [.drive p b] := rfl
@[simp] theorem State.drive_answers (s : State) (p : OutLine) (b : Level) : (s.drive p b).answers = s.answers := rfl
@[simp] theorem State.drive_texts (s : State) (p : OutLine) (b : Level) : (s.drive p b).texts = s.texts := rfl

@[simp] theorem State.wait_cfg (s : State) (d : Delay) : (s.wait d).cfg = s.cfg := rfl
@[simp] theorem State.wait_pins (s : State) (d : Delay) : (s.wait d).pins = s.pins := rfl
@[simp] theorem State.wait_seq (s : State) (d : Delay) : (s.wait d).seq = s.seq := rfl
@[simp] theorem State.wait_lineBuf (s : State) (d : Delay) : (s.wait d).lineBuf = s.lineBuf := rfl
@[simp] theorem State.wait_bannerSent (s : State) (d : Delay) : (s.wait d).bannerSent = s.bannerSent := rfl
@[simp] theorem State.wait_fromHost (s : State) (d : Delay) : (s.wait d).fromHost = s.fromHost := rfl
@[simp] theorem State.wait_toHost (s : State) (d : Delay) : (s.wait d).toHost = s.toHost := rfl
@[simp] theorem State.wait_requests (s : State) (d : Delay) : (s.wait d).requests = s.requests := rfl
@[simp] theorem State.wait_results (s : State) (d : Delay) : (s.wait d).results = s.results := rfl
@[simp] theorem State.wait_trace (s : State) (d : Delay) : (s.wait d).trace = s.trace ++ [.wait d] := rfl
@[simp] theorem State.wait_answers (s : State) (d : Delay) : (s.wait d).answers = s.answers := rfl
@[simp] theorem State.wait_texts (s : State) (d : Delay) : (s.wait d).texts = s.texts := rfl

@[simp] theorem State.sample_cfg (s : State) (p : InLine) : (s.sample p).cfg = s.cfg := rfl
@[simp] theorem State.sample_pins (s : State) (p : InLine) : (s.sample p).pins = s.pins := rfl
@[simp] theorem State.sample_seq (s : State) (p : InLine) : (s.sample p).seq = s.seq := rfl
@[simp] theorem State.sample_lineBuf (s : State) (p : InLine) : (s.sample p).lineBuf = s.lineBuf := rfl
@[simp] theorem State.sample_bannerSent (s : State) (p : InLine) : (s.sample p).bannerSent = s.bannerSent := rfl
@[simp] theorem State.sample_fromHost (s : State) (p : InLine) : (s.sample p).fromHost = s.fromHost := rfl
@[simp] theorem State.sample_toHost (s : State) (p : InLine) : (s.sample p).toHost = s.toHost := rfl
@[simp] theorem State.sample_requests (s : State) (p : InLine) : (s.sample p).requests = s.requests := rfl
@[simp] theorem State.sample_results (s : State) (p : InLine) : (s.sample p).results = s.results := rfl
@[simp] theorem State.sample_trace (s : State) (p : InLine) : (s.sample p).trace = s.trace ++ [.sample p (s.answer p)] := rfl
@[simp] theorem State.sample_answers (s : State) (p : InLine) : (s.sample p).answers = s.answers.tail := rfl
@[simp] theorem State.sample_texts (s : State) (p : InLine) : (s.sample p).texts = s.texts := rfl

@[simp] theorem State.send_cfg (s : State) (bytes : List Byte) : (s.send bytes).cfg = s.cfg := rfl
@[simp] theorem State.send_pins (s : State) (bytes : List Byte) : (s.send bytes).pins = s.pins := rfl
@[simp] theorem State.send_seq (s : State) (bytes : List Byte) : (s.send bytes).seq = s.seq := rfl
@[simp] theorem State.send_lineBuf (s : State) (bytes : List Byte) : (s.send bytes).lineBuf = s.lineBuf := rfl
@[simp] theorem State.send_bannerSent (s : State) (bytes : List Byte) : (s.send bytes).bannerSent = s.bannerSent := rfl
@[simp] theorem State.send_fromHost (s : State) (bytes : List Byte) : (s.send bytes).fromHost = s.fromHost := rfl
@[simp] theorem State.send_toHost (s : State) (bytes : List Byte) : (s.send bytes).toHost = s.toHost ++ bytes := rfl
@[simp] theorem State.send_requests (s : State) (bytes : List Byte) : (s.send bytes).requests = s.requests := rfl
@[simp] theorem State.send_results (s : State) (bytes : List Byte) : (s.send bytes).results = s.results := rfl
@[simp] theorem State.send_trace (s : State) (bytes : List Byte) : (s.send bytes).trace = s.trace ++ [.tx bytes] := rfl
@[simp] theorem State.send_answers (s : State) (bytes : List Byte) : (s.send bytes).answers = s.answers := rfl
@[simp] theorem State.send_texts (s : State) (bytes : List Byte) : (s.send bytes).texts = s.texts := rfl

@[simp] theorem State.respond_cfg (s : State) (text : List Byte) : (s.respond text).cfg = s.cfg := rfl
@[simp] theorem State.respond_pins (s : State) (text : List Byte) : (s.respond text).pins = s.pins := rfl
@[simp] theorem State.respond_seq (s : State) (text : List Byte) : (s.respond text).seq = .idle := rfl
@[simp] theorem State.respond_lineBuf (s : State) (text : List Byte) : (s.respond text).lineBuf = [] := rfl
@[simp] theorem State.respond_bannerSent (s : State) (text : List Byte) : (s.respond text).bannerSent = s.bannerSent := rfl
@[simp] theorem State.respond_fromHost (s : State) (text : List Byte) : (s.respond text).fromHost = s.fromHost := rfl
@[simp] theorem State.respond_toHost (s : State) (text : List Byte) : (s.respond text).toHost = s.toHost ++ (text ++ crlf) := rfl
@[simp] theorem State.respond_requests (s : State) (text : List Byte) : (s.respond text).requests = s.requests := rfl
@[simp] theorem State.respond_results (s : State) (text : List Byte) : (s.respond text).results = s.results := rfl
@[simp] theorem State.respond_trace (s : State) (text : List Byte) : (s.respond text).trace = s.trace ++ [.tx (text ++ crlf)] := rfl
@[simp] theorem State.respond_answers (s : State) (text : List Byte) : (s.respond text).answers = s.answers := rfl
@[simp] theorem State.respond_texts (s : State) (text : List Byte) : (s.respond text).texts = s.texts := rfl

@[simp] theorem State.deliver_cfg (s : State) (r : Result) : (s.deliver r).cfg = s.cfg := rfl
@[simp] theorem State.deliver_pins (s : State) (r : Result) : (s.deliver r).pins = s.pins := rfl
@[simp] theorem State.deliver_seq (s : State) (r : Result) : (s.deliver r).seq = .idle := rfl
@[simp] theorem State.deliver_lineBuf (s : State) (r : Result) : (s.deliver r).lineBuf = s.lineBuf := rfl
@[simp] theorem State.deliver_bannerSent (s : State) (r : Result) : (s.deliver r).bannerSent = s.bannerSent := rfl
@[simp] theorem State.deliver_fromHost (s : State) (r : Result) : (s.deliver r).fromHost = s.fromHost := rfl
@[simp] theorem State.deliver_toHost (s : State) (r : Result) : (s.deliver r).toHost = s.toHost := rfl
@[simp] theorem State.deliver_requests (s : State) (r : Result) : (s.deliver r).requests = s.requests := rfl
@[simp] theorem State.deliver_results (s : State) (r : Result) : (s.deliver r).results = s.results ++ [r] := rfl
@[simp] theorem State.deliver_trace (s : State) (r : Result) : (s.deliver r).trace = s.trace := rfl
@[simp] theorem State.deliver_answers (s : State) (r : Result) : (s.deliver r).answers = s.answers := rfl
@[simp] theorem State.deliver_texts (s : State) (r : Result) : (s.deliver r).texts = s.texts := rfl

@[simp] theorem State.dropText_cfg (s : State) : (s.dropText).cfg = s.cfg := rfl
@[simp] theorem State.dropText_pins (s : State) : (s.dropText).pins = s.pins := rfl
@[simp] theorem State.dropText_seq (s : State) : (s.dropText).seq = s.seq := rfl
@[simp] theorem State.dropText_lineBuf (s : State) : (s.dropText).lineBuf = s.lineBuf := rfl
@[simp] theorem State.dropText_bannerSent (s : State) : (s.dropText).bannerSent = s.bannerSent := rfl
@[simp] theorem State.dropText_fromHost (s : State) : (s.dropText).fromHost = s.fromHost := rfl
@[simp] theorem State.dropText_toHost (s : State) : (s.dropText).toHost = s.toHost := rfl
@[simp] theorem State.dropText_requests (s : State) : (s.dropText).requests = s.requests := rfl
@[simp] theorem State.dropText_results (s : State) : (s.dropText).results = s.results := rfl
@[simp] theorem State.dropText_trace (s : State) : (s.dropText).trace = s.trace := rfl
@[simp] theorem State.dropText_answers (s : State) : (s.dropText).answers = s.answers := rfl
@[simp] theorem State.dropText_texts (s : State) : (s.dropText).texts = s.texts.tail := rfl

@[simp] theorem State.sendBanner_cfg (s : State) : (s.sendBanner).cfg = s.cfg := rfl
@[simp] theorem State.sendBanner_pins (s : State) : (s.sendBanner).pins = s.pins := rfl
@[simp] theorem State.sendBanner_seq (s : State) : (s.sendBanner).seq = s.seq := rfl
@[simp] theorem State.sendBanner_lineBuf (s : State) : (s.sendBanner).lineBuf = [] := rfl
@[simp] theorem State.sendBanner_bannerSent (s : State) : (s.sendBanner).bannerSent = true := rfl
@[simp] theorem State.sendBanner_fromHost (s : State) : (s.sendBanner).fromHost = s.fromHost := rfl
@[simp] theorem State.sendBanner_toHost (s : State) : (s.sendBanner).toHost = s.toHost ++ (banner ++ crlf) := rfl
@[simp] theorem State.sendBanner_requests (s : State) : (s.sendBanner).requests = s.requests := rfl
@[simp] theorem State.sendBanner_results (s : State) : (s.sendBanner).results = s.results := rfl
@[simp] theorem State.sendBanner_trace (s : State) : (s.sendBanner).trace = s.trace ++ [.tx (banner ++ crlf)] := rfl
@[simp] theorem State.sendBanner_answers (s : State) : (s.sendBanner).answers = s.answers := rfl
@[simp] theorem State.sendBanner_texts (s : State) : (s.sendBanner).texts = s.texts := rfl

/-! ### The latches -/

@[simp] theorem Pins.set_dout_dout (p : Pins) (b : Level) : (p.set .dout b).dout = b := rfl
@[simp] theorem Pins.set_dout_clk (p : Pins) (b : Level) : (p.set .dout b).clk = p.clk := rfl
@[simp] theorem Pins.set_dout_rstN (p : Pins) (b : Level) : (p.set .dout b).rstN = p.rstN := rfl
@[simp] theorem Pins.set_clk_dout (p : Pins) (b : Level) : (p.set .clk b).dout = p.dout := rfl
@[simp] theorem Pins.set_clk_clk (p : Pins) (b : Level) : (p.set .clk b).clk = b := rfl
@[simp] theorem Pins.set_clk_rstN (p : Pins) (b : Level) : (p.set .clk b).rstN = p.rstN := rfl
@[simp] theorem Pins.set_rstN_dout (p : Pins) (b : Level) : (p.set .rstN b).dout = p.dout := rfl
@[simp] theorem Pins.set_rstN_clk (p : Pins) (b : Level) : (p.set .rstN b).clk = p.clk := rfl
@[simp] theorem Pins.set_rstN_rstN (p : Pins) (b : Level) : (p.set .rstN b).rstN = b := rfl

/-- Reading a latch gives the level last driven on it, and driving one line leaves the others (R22). -/
theorem Pins.get_set (p : Pins) (l m : OutLine) (b : Level) :
    (p.set l b).get m = if m = l then b else p.get m := by
  cases l <;> cases m <;> rfl

/-! ### Actions and acceptance -/

@[simp] theorem State.perform_drive (s : State) (p : OutLine) (b : Level) : s.perform (.drive p b) = s.drive p b := rfl
@[simp] theorem State.perform_wait (s : State) (d : Delay) : s.perform (.wait d) = s.wait d := rfl
@[simp] theorem State.perform_sample (s : State) (p : InLine) : s.perform (.sample p) = s.sample p := rfl
@[simp] theorem State.sampled_drive (s : State) (p : OutLine) (b : Level) : s.sampled (.drive p b) = [] := rfl
@[simp] theorem State.sampled_wait (s : State) (d : Delay) : s.sampled (.wait d) = [] := rfl
@[simp] theorem State.sampled_sample (s : State) (p : InLine) : s.sampled (.sample p) = [s.answer p] := rfl

/-- An idle machine accepts (R232). -/
theorem accept_idle {s : State} (h : s.seq = .idle) (run : State → State) : accept s run = .next (run s) := by
  simp [accept, h]

/-- A busy machine does not (R232). -/
theorem accept_busy {s : State} (h : s.seq ≠ .idle) (run : State → State) :
    accept s run = .refused .operationInProgress := by
  simp [accept, h]

/-- What an accepted request answers: the state its run ends in, from an idle machine. -/
theorem accept_next {s t : State} {run : State → State} (h : accept s run = .next t) : s.seq = .idle ∧ t = run s := by
  unfold accept at h
  split at h
  · exact ⟨‹_›, by simpa using h.symm⟩
  · simp at h

end Sys2Proof.Machine
end

