-- ==== Sys2Proof/Laws/Script.lean ====
section
/-! SUPPORT. What running a script of actions does, and what one exchange does (R131): the lemmas every operation's own
lemma cites. -/

namespace Sys2Proof.Machine

open Sys2Proof.Safety

/-- The event an action emits when it samples the level `b`. -/
def Action.event (b : Level) : Action → Event
  | .drive p l => .drive p l
  | .wait d => .wait d
  | .sample p => .sample p b

/-- The events of a script whose samples are `bits`. -/
def scriptEvents : List Action → List Level → List Event
  | [], _ => []
  | .sample p :: rest, bits => .sample p (bits.headD false) :: scriptEvents rest bits.tail
  | .drive p b :: rest, bits => .drive p b :: scriptEvents rest bits
  | .wait d :: rest, bits => .wait d :: scriptEvents rest bits

/-- The latches after a script. -/
def scriptPins : List Action → Pins → Pins
  | [], p => p
  | .drive l b :: rest, p => scriptPins rest (p.set l b)
  | .wait _ :: rest, p => scriptPins rest p
  | .sample _ :: rest, p => scriptPins rest p

/-- How many samples a script takes. -/
def scriptSamples : List Action → Nat
  | [] => 0
  | .drive _ _ :: rest => scriptSamples rest
  | .wait _ :: rest => scriptSamples rest
  | .sample _ :: rest => scriptSamples rest + 1

/-- The levels a script samples: the answers supplied come first. -/
theorem runScript_supplied (acts : List Action) (s : State) :
    (runScript acts s).1.length = scriptSamples acts ∧
    s.answers.take (scriptSamples acts) <+: (runScript acts s).1 := by
  induction acts generalizing s with
  | nil => simp [runScript, scriptSamples]
  | cons a rest ih =>
    cases a with
    | drive p b => simpa [runScript, scriptSamples] using ih (s.drive p b)
    | wait d => simpa [runScript, scriptSamples] using ih (s.wait d)
    | sample p =>
      have h := ih (s.sample p)
      refine ⟨by simpa [runScript, scriptSamples] using h.1, ?_⟩
      cases ha : s.answers with
      | nil => simp
      | cons b bs =>
        have hb : s.answer p = b := by simp [State.answer, ha]
        simpa [runScript, scriptSamples, hb, ha] using h.2

/-- The state after a script: latches, trace and answers, nothing else. -/
theorem runScript_state (acts : List Action) (s : State) :
    (runScript acts s).2 =
      { s with
        pins := scriptPins acts s.pins
        trace := s.trace ++ scriptEvents acts (runScript acts s).1
        answers := s.answers.drop (scriptSamples acts) } := by
  induction acts generalizing s with
  | nil => simp [runScript, scriptPins, scriptEvents, scriptSamples]
  | cons a rest ih =>
    cases a with
    | drive p b =>
      change (runScript rest (s.drive p b)).2 = _
      rw [ih]
      simp [runScript, scriptPins, scriptEvents, scriptSamples]
    | wait d =>
      change (runScript rest (s.wait d)).2 = _
      rw [ih]
      simp [runScript, scriptPins, scriptEvents, scriptSamples]
    | sample p =>
      change (runScript rest (s.sample p)).2 = _
      rw [ih]
      simp [runScript, scriptPins, scriptEvents, scriptSamples]

end Sys2Proof.Machine
end

