-- ==== Sys2Proof/Laws/Exchange.lean ====
section
/-! SUPPORT. One exchange (R131): what `transferWord` returns and the state it ends in. -/

namespace Sys2Proof.Machine

open Sys2Proof.Safety

/-- Two scripts in a row. -/
theorem runScript_append (a b : List Action) (s : State) :
    runScript (a ++ b) s =
      ((runScript a s).1 ++ (runScript b (runScript a s).2).1, (runScript b (runScript a s).2).2) := by
  induction a generalizing s with
  | nil => simp [runScript]
  | cons x rest ih => simp [runScript, ih]

/-- The script of the bit steps from `BITPOS = n - 1` down to 0. -/
def downScript (outgoing : Nat) : Nat → List Action
  | 0 => []
  | n + 1 => bitScript outgoing n ++ downScript outgoing n

/-- The bit steps are the script's events, with every sampled bit shifted into `ACC`. -/
theorem bitSteps_eq_script (outgoing n : Nat) (acc : Acc) (s : State) :
    bitSteps outgoing n acc s =
      ((runScript (downScript outgoing n) s).1.foldl shiftIn acc, (runScript (downScript outgoing n) s).2) := by
  induction n generalizing acc s with
  | zero => simp [bitSteps, downScript, runScript]
  | succ n ih => simp [bitSteps, bitStep, downScript, runScript_append, ih]

/-- `ACC` as a number: each shift doubles and adds the bit, modulo `2^17` (R28). -/
theorem shiftIn_toNat (acc : Acc) (b : Level) : (shiftIn acc b).toNat = (2 * acc.toNat + b.toNat) % 2 ^ 17 := by
  have disjoint : (acc <<< 1) &&& (BitVec.ofBool b).setWidth 17 = 0#17 := by
    ext i hi
    rcases i with _ | i <;> simp
  rw [shiftIn, ← BitVec.add_eq_or_of_and_eq_zero _ _ disjoint]
  cases b <;> simp [BitVec.toNat_add, BitVec.toNat_shiftLeft, Nat.shiftLeft_eq, Nat.mul_comm]

/-- The payload after an exchange is the word R138 gives for its samples. -/
theorem payload_foldl (bits : List Level) (h : bits.length = 17) :
    payload (bits.foldl shiftIn 0#17) = replyWord bits := by
  rcases bits with _ | ⟨b0, _ | ⟨b1, _ | ⟨b2, _ | ⟨b3, _ | ⟨b4, _ | ⟨b5, _ | ⟨b6, _ | ⟨b7, _ | ⟨b8, bits⟩⟩⟩⟩⟩⟩⟩⟩⟩ <;>
    try simp at h
  rcases bits with _ | ⟨b9, _ | ⟨b10, _ | ⟨b11, _ | ⟨b12, _ | ⟨b13, _ | ⟨b14, _ | ⟨b15, _ | ⟨b16, bits⟩⟩⟩⟩⟩⟩⟩⟩ <;>
    try simp at h
  subst h
  apply BitVec.eq_of_toNat_eq
  have l := fun b : Bool => Bool.toNat_le b
  have := l b0; have := l b1; have := l b2; have := l b3; have := l b4; have := l b5; have := l b6; have := l b7
  have := l b8; have := l b9; have := l b10; have := l b11; have := l b12; have := l b13; have := l b14; have := l b15
  have := l b16
  simp only [payload, replyWord, List.foldl_cons, List.foldl_nil, BitVec.toNat_setWidth, shiftIn_toNat,
    BitVec.toNat_ofNat, List.range, List.range.loop, List.map_cons, List.map_nil, List.sum_cons, List.sum_nil,
    List.getD_cons_succ, List.getD_cons_zero]
  omega

/-- The samples, latches and events of the script of one exchange. -/
theorem downScript_samples (outgoing n : Nat) : scriptSamples (downScript outgoing n) = n := by
  induction n with
  | zero => rfl
  | succ n ih => simp [downScript, bitScript, scriptSamples, ih]

theorem downScript_pins (outgoing n : Nat) (p : Pins) :
    scriptPins (downScript outgoing (n + 1)) p =
      { dout := outgoing.testBit 0, clk := true, rstN := p.rstN } := by
  induction n generalizing p with
  | zero => rfl
  | succ n ih =>
    rw [downScript]
    simp only [bitScript, List.cons_append, List.nil_append, scriptPins, ih]
    simp

theorem downScript_events (outgoing n : Nat) (bits : List Level) :
    scriptEvents (downScript outgoing n) bits =
      (List.range n).flatMap fun k => bitStepEvents outgoing (n - 1 - k) (bits.getD k false) := by
  induction n generalizing bits with
  | zero => rfl
  | succ n ih =>
    rw [List.range_succ_eq_map]
    simp only [downScript, bitScript, List.cons_append, List.nil_append, scriptEvents, ih, List.flatMap_cons,
      List.flatMap_map]
    cases bits <;> simp [bitStepEvents, Nat.sub_sub, Nat.add_comm]

/-- `transferWord` whole (R131): 17 samples, the word they spell, and the state after the exchange. -/
theorem transferWord_spec (outgoing : Nat) (s : State) :
    ∃ bits, bits.length = 17 ∧ Supplied s bits ∧
      transferWord outgoing s = (replyWord bits, afterExchange s outgoing bits) := by
  have len : (runScript (downScript outgoing 17) s).1.length = 17 := by
    rw [(runScript_supplied _ s).1, downScript_samples]
  refine ⟨(runScript (downScript outgoing 17) s).1, len, ?_, ?_⟩
  · have h := (runScript_supplied (downScript outgoing 17) s).2
    rw [downScript_samples] at h
    simpa [Supplied, len] using h
  · simp only [transferWord, bitSteps_eq_script]
    rw [runScript_state, payload_foldl _ len, downScript_samples, downScript_pins, downScript_events]
    rfl

end Sys2Proof.Machine
end

