-- ==== Sys2Proof/Laws/Operations.lean ====
section
/-! SUPPORT. What each operation of files 41 and 42 does, said once: its value and the state it ends in. -/

namespace Sys2Proof.Machine

open Sys2Proof.Safety

/-! ### The Mode Controller -/

/-- `enterDebugMode` whole (R151). -/
theorem enterDebugMode_spec (s : State) :
    enterDebugMode s =
      { s with
        pins := { dout := s.pins.dout, clk := false, rstN := true }
        trace := s.trace ++ enterEvents } := by
  rw [enterDebugMode, runScript_state]
  rfl

/-- `reset` whole (R158). -/
theorem resetTarget_spec (s : State) : resetTarget s = afterReset s := by
  rw [resetTarget, runScript_state]
  rfl

/-- `isHalted` whole (R154). -/
theorem isHalted_spec (s : State) : ∃ f, Supplied s [f] ∧ isHalted s = (f, afterIsHalted s f) := by
  refine ⟨s.answer .frz, ?_, ?_⟩
  · simpa [runScript, haltedScript, scriptSamples, Supplied] using (runScript_supplied haltedScript s).2
  · simp only [isHalted]
    rw [runScript_state]
    simp [runScript, haltedScript, haltedAnswer, halted, scriptPins, scriptEvents, scriptSamples, afterIsHalted]

/-- `stop` whole (R155). -/
theorem stop_spec (s : State) : ∃ f, Supplied s [f] ∧ stop s = (f, afterStop s f) := by
  have h := runScript_supplied stopScript s
  have len : (runScript stopScript s).1.length = 1 := h.1
  obtain ⟨f, hf⟩ := List.length_eq_one_iff.mp len
  refine ⟨f, ?_, ?_⟩
  · have h2 := h.2
    rw [hf] at h2
    exact h2
  · simp only [stop]
    rw [runScript_state, hf]
    simp [haltedAnswer, halted, afterStop, stopScript, haltedScript, enterScript, scriptPins, scriptEvents,
      scriptSamples, stopEvents, enterEvents, Pins.set]

/-- `resume` whole (R160). -/
theorem resume_spec (s : State) :
    ∃ bits, bits.length = 17 ∧ Supplied s bits ∧ resume s = afterExchange s s.cfg.goOpcode.toNat bits := by
  obtain ⟨bits, len, sup, h⟩ := transferWord_spec s.cfg.goOpcode.toNat s
  exact ⟨bits, len, sup, by simp [resume, h]⟩

/-! ### The Access Layer -/

/-- `readRegister` whole (R181). -/
theorem readRegister_spec (index : Nat) (s : State) :
    ∃ bits, bits.length = 17 ∧ Supplied s bits ∧
      readRegister index s =
        (replyWord bits, afterExchange s (registerOpcode s.cfg.readBase index).toNat bits) :=
  transferWord_spec _ s

/-- Samples of one exchange and then of a list of exchanges are the samples of the list. -/
theorem exchanged_cons {s : State} {w : Nat} {bits : List Level} {xs : List (Nat × List Level)}
    (len : bits.length = 17) (sup : Supplied s bits) (h : Exchanged (afterExchange s w bits) xs) :
    Exchanged s ((w, bits) :: xs) := by
  refine ⟨?_, ?_⟩
  · intro x hx
    rcases List.mem_cons.mp hx with rfl | hx
    · exact len
    · exact h.1 x hx
  · have h2 := h.2
    simp only [Supplied, List.flatMap_cons, List.length_append, afterExchange, len] at sup h2 ⊢
    rw [List.take_add]
    obtain ⟨r, hr⟩ := sup
    obtain ⟨q, hq⟩ := h2
    by_cases hl : s.answers.length < 17
    · have : s.answers.drop 17 = [] := List.drop_eq_nil_of_le (by omega)
      rw [this]
      exact ⟨r ++ xs.flatMap Prod.snd, by simp [← hr]⟩
    · have : (s.answers.take 17).length = 17 := by simp; omega
      have hr0 : r = [] := by
        have := congrArg List.length hr
        simp at this
        exact List.length_eq_zero_iff.mp (by omega)
      subst hr0
      simp only [List.append_nil] at hr
      exact ⟨q, by rw [hr, List.append_assoc, hq]⟩

theorem exchanged_nil (s : State) : Exchanged s [] := ⟨by simp, by simp [Supplied]⟩

/-- Two exchanges in a row. -/
theorem two_exchanges (v w : Nat) (s : State) :
    ∃ a b, Exchanged s [(v, a), (w, b)] ∧
      transferWord w (transferWord v s).2 = (replyWord b, afterExchanges s [(v, a), (w, b)]) := by
  obtain ⟨a, la, sa, ha⟩ := transferWord_spec v s
  obtain ⟨b, lb, sb, hb⟩ := transferWord_spec w (afterExchange s v a)
  exact ⟨a, b, exchanged_cons la sa (exchanged_cons lb sb (exchanged_nil _)), by rw [ha]; exact hb⟩

/-- `writeRegister` whole (R184). -/
theorem writeRegister_spec (index value : Nat) (s : State) :
    ∃ a b, Exchanged s [((registerOpcode s.cfg.writeBase index).toNat, a), (value, b)] ∧
      writeRegister index value s =
        afterExchanges s [((registerOpcode s.cfg.writeBase index).toNat, a), (value, b)] := by
  obtain ⟨a, b, hx, h⟩ := two_exchanges (registerOpcode s.cfg.writeBase index).toNat value s
  exact ⟨a, b, hx, by simp [writeRegister, h]⟩

/-- Frame MEM_READ_STEP whole (R97). -/
theorem memReadStep_spec (address : Nat) (s : State) :
    ∃ a b, Exchanged s [(s.cfg.armReadOpcode.toNat, a), (address, b)] ∧
      memReadStep address s =
        (replyWord b, afterExchanges s [(s.cfg.armReadOpcode.toNat, a), (address, b)]) :=
  two_exchanges _ _ s

/-- Frame MEM_WRITE_STEP whole (R97). -/
theorem memWriteStep_spec (data : Nat) (s : State) :
    ∃ a b, Exchanged s [(s.cfg.armWriteOpcode.toNat, a), (data, b)] ∧
      memWriteStep data s = afterExchanges s [(s.cfg.armWriteOpcode.toNat, a), (data, b)] := by
  obtain ⟨a, b, hx, h⟩ := two_exchanges s.cfg.armWriteOpcode.toNat data s
  exact ⟨a, b, hx, by simp [memWriteStep, h]⟩

/-! ### What exchanges do to each field -/

@[simp] theorem afterExchanges_cfg (xs : List (Nat × List Level)) (s : State) :
    (afterExchanges s xs).cfg = s.cfg := by
  induction xs generalizing s with
  | nil => rfl
  | cons x rest ih => exact ih (afterExchange s x.1 x.2)

@[simp] theorem afterExchanges_seq (xs : List (Nat × List Level)) (s : State) :
    (afterExchanges s xs).seq = s.seq := by
  induction xs generalizing s with
  | nil => rfl
  | cons x rest ih => exact ih (afterExchange s x.1 x.2)

@[simp] theorem afterExchanges_lineBuf (xs : List (Nat × List Level)) (s : State) :
    (afterExchanges s xs).lineBuf = s.lineBuf := by
  induction xs generalizing s with
  | nil => rfl
  | cons x rest ih => exact ih (afterExchange s x.1 x.2)

@[simp] theorem afterExchanges_bannerSent (xs : List (Nat × List Level)) (s : State) :
    (afterExchanges s xs).bannerSent = s.bannerSent := by
  induction xs generalizing s with
  | nil => rfl
  | cons x rest ih => exact ih (afterExchange s x.1 x.2)

@[simp] theorem afterExchanges_fromHost (xs : List (Nat × List Level)) (s : State) :
    (afterExchanges s xs).fromHost = s.fromHost := by
  induction xs generalizing s with
  | nil => rfl
  | cons x rest ih => exact ih (afterExchange s x.1 x.2)

@[simp] theorem afterExchanges_toHost (xs : List (Nat × List Level)) (s : State) :
    (afterExchanges s xs).toHost = s.toHost := by
  induction xs generalizing s with
  | nil => rfl
  | cons x rest ih => exact ih (afterExchange s x.1 x.2)

@[simp] theorem afterExchanges_requests (xs : List (Nat × List Level)) (s : State) :
    (afterExchanges s xs).requests = s.requests := by
  induction xs generalizing s with
  | nil => rfl
  | cons x rest ih => exact ih (afterExchange s x.1 x.2)

@[simp] theorem afterExchanges_results (xs : List (Nat × List Level)) (s : State) :
    (afterExchanges s xs).results = s.results := by
  induction xs generalizing s with
  | nil => rfl
  | cons x rest ih => exact ih (afterExchange s x.1 x.2)

@[simp] theorem afterExchanges_texts (xs : List (Nat × List Level)) (s : State) :
    (afterExchanges s xs).texts = s.texts := by
  induction xs generalizing s with
  | nil => rfl
  | cons x rest ih => exact ih (afterExchange s x.1 x.2)

@[simp] theorem afterExchanges_rstN (xs : List (Nat × List Level)) (s : State) :
    (afterExchanges s xs).pins.rstN = s.pins.rstN := by
  induction xs generalizing s with
  | nil => rfl
  | cons x rest ih => exact ih (afterExchange s x.1 x.2)

@[simp] theorem afterExchanges_trace (xs : List (Nat × List Level)) (s : State) :
    (afterExchanges s xs).trace = s.trace ++ xs.flatMap fun x => exchangeEvents x.1 x.2 := by
  induction xs generalizing s with
  | nil => simp [afterExchanges]
  | cons x rest ih =>
    rw [afterExchanges, ih, afterExchange]
    simp

/-- The clock is high after an exchange, and stays so (R24). -/
theorem afterExchanges_clk (xs : List (Nat × List Level)) (s : State) :
    (afterExchanges s xs).pins.clk = if xs = [] then s.pins.clk else true := by
  induction xs generalizing s with
  | nil => rfl
  | cons x rest ih =>
    rw [afterExchanges, ih, afterExchange]
    simp

/-- The events of an exchange are pin events, and none is on `RST_N`. -/
theorem mem_exchangeEvents {w : Nat} {bits : List Level} {e : Event} (h : e ∈ exchangeEvents w bits) :
    (∃ b, e = .drive .dout b) ∨ (∃ b, e = .drive .clk b) ∨ e = .wait .qBit ∨ ∃ b, e = .sample .din b := by
  simp only [exchangeEvents, bitStepEvents, List.mem_flatMap, List.mem_cons, List.not_mem_nil, or_false] at h
  obtain ⟨n, -, rfl | rfl | rfl | rfl | rfl | rfl | rfl⟩ := h <;> simp

/-- An exchange samples `DIN`. -/
theorem sample_mem_exchangeEvents (w : Nat) (bits : List Level) :
    Event.sample .din (bits.getD 0 false) ∈ exchangeEvents w bits := by
  simp only [exchangeEvents, List.mem_flatMap, List.mem_range]
  exact ⟨0, by omega, by simp [bitStepEvents]⟩

theorem afterExchanges_append (s : State) (xs ys : List (Nat × List Level)) :
    afterExchanges s (xs ++ ys) = afterExchanges (afterExchanges s xs) ys := by
  induction xs generalizing s with
  | nil => rfl
  | cons x rest ih => simp [afterExchanges, ih]

/-- Samples of one list of exchanges and then of another are the samples of both. -/
theorem exchanged_append {s : State} {xs ys : List (Nat × List Level)} (hx : Exchanged s xs)
    (hy : Exchanged (afterExchanges s xs) ys) : Exchanged s (xs ++ ys) := by
  induction xs generalizing s with
  | nil => exact hy
  | cons x rest ih =>
    have len : x.2.length = 17 := hx.1 x (by simp)
    have h2 := hx.2
    have sup : Supplied s x.2 := by
      simp only [Supplied, List.flatMap_cons, List.length_append] at h2 ⊢
      have h3 : s.answers.take x.2.length <+: x.2 ++ rest.flatMap Prod.snd :=
        ((List.take_prefix_take_left (l := s.answers) (Nat.le_add_right x.2.length _)).trans h2)
      exact List.prefix_of_prefix_length_le h3 (List.prefix_append _ _) (by simp)
    refine exchanged_cons len sup (ih ⟨fun y hy => hx.1 y (by simp [hy]), ?_⟩ hy)
    simp only [Supplied, List.flatMap_cons, List.length_append, len, List.take_add, afterExchange] at h2 ⊢
    by_cases hl : s.answers.length < 17
    · rw [List.drop_eq_nil_of_le (by omega)]
      simp
    · obtain ⟨q, hq⟩ := h2
      rw [List.append_assoc] at hq
      have e := List.append_inj hq (by simp [len]; omega)
      exact ⟨q, e.2⟩

/-- The steps of `readMemory` whole (R187, R188). -/
theorem readSteps_spec (address : Addr) (n j : Nat) (out : List Byte) (s : State) :
    ∃ steps : List (List Level × List Level), steps.length = n ∧
      Exchanged s ((steps.zipIdx j).flatMap fun x =>
        [(s.cfg.armReadOpcode.toNat, x.1.1), ((address + BitVec.ofNat 32 (2 * x.2)).toNat, x.1.2)]) ∧
      readSteps address n (2 * j) out s =
        (out ++ readBytes steps,
          afterExchanges s ((steps.zipIdx j).flatMap fun x =>
            [(s.cfg.armReadOpcode.toNat, x.1.1), ((address + BitVec.ofNat 32 (2 * x.2)).toNat, x.1.2)])) := by
  induction n generalizing j out s with
  | zero => exact ⟨[], rfl, exchanged_nil s, by simp [readSteps, readBytes, afterExchanges]⟩
  | succ n ih =>
    have addr : stepAddress address (2 * j) = address + BitVec.ofNat 32 (2 * j) := rfl
    obtain ⟨a, b, hx, h⟩ := memReadStep_spec (stepAddress address (2 * j)).toNat s
    rw [addr] at hx h
    obtain ⟨steps, len, hxs, hs⟩ :=
      ih (j + 1) (out ++ [highByte (replyWord b), lowByte (replyWord b)]) (afterExchanges s _)
    simp only [afterExchanges_cfg] at hxs hs
    refine ⟨(a, b) :: steps, by simp [len], ?_, ?_⟩
    · simp only [List.zipIdx_cons, List.flatMap_cons]
      exact exchanged_append hx hxs
    · simp only [Nat.mul_add, Nat.mul_one] at hs
      rw [readSteps, addr, h, hs]
      simp only [List.zipIdx_cons, List.flatMap_cons, afterExchanges_append, List.append_assoc]
      rfl

/-- `readMemory` whole (R188). -/
theorem readMemory_spec (address : Addr) (length : Nat) (s : State) :
    ∃ steps, steps.length = length / 2 ∧ Exchanged s (readExchanges s.cfg address steps) ∧
      readMemory address length s =
        (readBytes steps, afterExchanges s (readExchanges s.cfg address steps)) := by
  obtain ⟨steps, len, hx, h⟩ := readSteps_spec address (length / 2) 0 [] s
  exact ⟨steps, len, hx, h⟩

/-- The steps of `writeMemory` whole, from the byte at offset `2 * j` of `all` (R187, R192). -/
theorem writeSteps_spec (all : List Byte) (data : List Byte) (j : Nat) (at_ : all.drop (2 * j) = data) (s : State) :
    ∃ steps : List (List Level × List Level), steps.length = data.length / 2 ∧
      Exchanged s ((steps.zipIdx j).flatMap fun x =>
        [(s.cfg.armWriteOpcode.toNat, x.1.1), ((dataWord all x.2).toNat, x.1.2)]) ∧
      writeSteps data s =
        afterExchanges s ((steps.zipIdx j).flatMap fun x =>
          [(s.cfg.armWriteOpcode.toNat, x.1.1), ((dataWord all x.2).toNat, x.1.2)]) := by
  induction data using List.twoStepInduction generalizing j s with
  | nil => exact ⟨[], rfl, exchanged_nil s, by simp [writeSteps, afterExchanges]⟩
  | singleton b => exact ⟨[], by simp, exchanged_nil s, by simp [writeSteps, afterExchanges]⟩
  | cons_cons high low rest ih =>
    have e0 : all.getD (2 * j) 0#8 = high := by
      have := congrArg (fun l => l.getD 0 0#8) at_
      simpa [List.getD_eq_getElem?_getD] using this
    have e1 : all.getD (2 * j + 1) 0#8 = low := by
      have := congrArg (fun l => l.getD 1 0#8) at_
      simpa [List.getD_eq_getElem?_getD] using this
    have next : all.drop (2 * (j + 1)) = rest := by
      have := congrArg (List.drop 2) at_
      simpa [Nat.mul_add] using this
    obtain ⟨a, b, hx, h⟩ := memWriteStep_spec (bigEndian high low).toNat s
    obtain ⟨steps, len, hxs, hs⟩ := ih (j + 1) next
      (afterExchanges s [(s.cfg.armWriteOpcode.toNat, a), ((bigEndian high low).toNat, b)])
    simp only [afterExchanges_cfg] at hxs hs
    have word : bigEndian high low = dataWord all j := by rw [dataWord, e0, e1, bigEndian]
    rw [word] at hx h hxs hs
    refine ⟨(a, b) :: steps, by simp [len]; omega, ?_, ?_⟩
    · simp only [List.zipIdx_cons, List.flatMap_cons]
      exact exchanged_append hx hxs
    · rw [writeSteps, word, h, hs]
      simp only [List.zipIdx_cons, List.flatMap_cons, afterExchanges_append]

/-- `writeMemory` whole (R192). -/
theorem writeMemory_spec (address : Addr) (data : List Byte) (s : State) :
    ∃ steps, steps.length = data.length / 2 ∧ Exchanged s (writeExchanges s.cfg data steps) ∧
      writeMemory address data s = afterExchanges s (writeExchanges s.cfg data steps) := by
  obtain ⟨steps, len, hx, h⟩ := writeSteps_spec data data 0 rfl s
  exact ⟨steps, len, hx, h⟩

end Sys2Proof.Machine
end

