-- ==== Sys2Proof/Laws/Exec.lean ====
section
/-! SUPPORT. What any instruction can do, said once: `exec_cases`. An instruction that answers a next state was accepted by
an idle machine, ran nothing, some exchanges or one of the four line sequences, and ended in a result, a response or
silence. -/

namespace Sys2Proof.Machine

open Sys2Proof.Safety

theorem deliver_idle {s : State} (h : s.seq = .idle) (r : Result) : s.deliver r = withResult s r := by
  simp [State.deliver, withResult, h]

theorem respond_idle {s : State} (h : s.seq = .idle) (text : List Byte) : s.respond text = afterResponse s text := by
  simp [State.respond, State.send, State.emit, afterResponse, crlf, h]

/-- The instructions that run one of the four line sequences (R150); every other one runs exchanges or nothing. -/
def movesLines : Instr → Bool
  | .enterDebugMode | .stop | .cmdStop | .reset | .cmdReset | .isHalted | .cmdStatus => true
  | _ => false

/-- The pin events an instruction can run, by the state they end in; the line sequences name who runs them (R150). -/
inductive Ran (i : Instr) (s : State) : State → Prop where
  | nothing (who : movesLines i = false) : Ran i s s
  | exchanges (who : movesLines i = false) (xs : List (Nat × List Level)) (taken : Exchanged s xs) : Ran i s (afterExchanges s xs)
  | entered (who : i = .enterDebugMode) :
      Ran i s { s with pins := { dout := s.pins.dout, clk := false, rstN := true }, trace := s.trace ++ enterEvents }
  | stopped (who : i = .stop ∨ i = .cmdStop) (f : Level) (taken : Supplied s [f]) : Ran i s (afterStop s f)
  | pulsed (who : i = .reset ∨ i = .cmdReset) : Ran i s (afterReset s)
  | looked (who : i = .isHalted ∨ i = .cmdStatus) (f : Level) (taken : Supplied s [f]) : Ran i s (afterIsHalted s f)

/-- The command rows that are answered by a response line (R213). -/
def answered : Instr → Bool
  | .cmdReset | .cmdStop | .cmdGo | .cmdStatus | .cmdReadReg _ | .cmdWriteReg _ _ | .cmdUnknown | .cmdBlank => true
  | _ => false

/-- How an instruction ends after its pin events: a command with a response of one line, which is never the banner; the empty
request with nothing; every other instruction with a result for the direct interface. -/
inductive Ended (i : Instr) (s : State) : State → Prop where
  | result (who : answered i = false) (r : Result) : Ended i s (withResult s r)
  | response (who : answered i = true) (text : List Byte) (texts : List (List Byte))
      (notBanner : text.head? ≠ banner.head?) (oneLine : ∀ b ∈ text, isTerminator b = false) : Ended i s { afterResponse s text with texts := texts }
  | silent (who : i = .cmdEmpty) : Ended i s s

/-- Pin events leave `SEQ` alone. -/
theorem Ran.seq_eq {i : Instr} {s u : State} (h : Ran i s u) : u.seq = s.seq := by
  cases h <;> simp [afterStop, afterReset, afterIsHalted]

/-- One exchange is a list of one. -/
theorem Ran.one {i : Instr} {s : State} {w : Nat} {bits : List Level} (who : movesLines i = false)
    (len : bits.length = 17) (sup : Supplied s bits) : Ran i s (afterExchange s w bits) :=
  .exchanges who [(w, bits)] (exchanged_cons len sup (exchanged_nil _))

/-- Every response text of a verb begins with another byte than the banner. -/
theorem responseText_head (s : State) (v : Verb) (r : Result) : (s.responseText v r).head? ≠ banner.head? := by
  cases v with
  | reset => simp only [State.responseText]; decide
  | stop => simp only [State.responseText]; split <;> decide
  | go => simp only [State.responseText]; decide
  | status => simp only [State.responseText]; split <;> decide
  | readReg reg =>
    have h : ascii "REG " = 0x52#8 :: [0x45#8, 0x47#8, 0x20#8] := by decide
    simp only [State.responseText, h, List.cons_append, List.head?_cons]
    decide
  | writeReg reg value =>
    have h : ascii "REG " = 0x52#8 :: [0x45#8, 0x47#8, 0x20#8] := by decide
    simp only [State.responseText, h, List.cons_append, List.head?_cons]
    decide

/-- So does the text of a caught fault. -/
theorem exceptionText_head (message : List Byte) : (exceptionText message).head? ≠ banner.head? := by
  have h : ascii "ERROR: Exception " = 0x45#8 :: (ascii "ERROR: Exception ").tail := by decide
  rw [exceptionText, h, List.cons_append, List.head?_cons]
  decide

/-! A response is one line: its text holds no terminator (R213). -/

/-- The token of the request that the response of a verb echoes (R108). -/
def echoed : Verb → List Byte
  | .readReg reg => reg
  | .writeReg reg _ => reg
  | _ => []

theorem ascii_oneLine {t : String} (h : (ascii t).all (fun b => !isTerminator b) = true) :
    ∀ b ∈ ascii t, isTerminator b = false := by
  simpa using h

theorem append_oneLine {x y : List Byte} (hx : ∀ b ∈ x, isTerminator b = false) (hy : ∀ b ∈ y, isTerminator b = false) :
    ∀ b ∈ x ++ y, isTerminator b = false :=
  List.forall_mem_append.2 ⟨hx, hy⟩

theorem hexFrom_oneLine {t : List Byte} {m n : Nat} (h : hexFrom m t = .ok n) : ∀ b ∈ t, isTerminator b = false := by
  have digit : ∀ b : Byte, isTerminator b = true → hexDigitValue b = none := by decide +kernel
  induction t generalizing m with
  | nil => simp
  | cons b rest ih =>
    simp only [hexFrom] at h
    split at h
    · rename_i d e
      refine List.forall_mem_cons.2 ⟨?_, ih h⟩
      by_contra hb
      simp [digit b (by simpa using hb)] at e
    · cases h

/-- A token that is read as a number holds no terminator. -/
theorem parseHex_oneLine {t : List Byte} {n : Nat} (h : parseHex t = .ok n) : ∀ b ∈ t, isTerminator b = false := by
  unfold parseHex at h
  split at h
  · cases h
  · exact hexFrom_oneLine h

theorem parseTwo_oneLine {t u : List Byte} {x : Nat × Nat} (h : parseTwo t u = .ok x) :
    ∀ b ∈ t, isTerminator b = false := by
  unfold parseTwo at h
  cases e : parseHex t with
  | error f => simp [e] at h
  | ok n => exact parseHex_oneLine e

theorem hex4_oneLine (v : Word) : ∀ b ∈ hex4 v, isTerminator b = false := by
  have digit : ∀ n < 16, isTerminator (hexDigit n) = false := by decide +kernel
  simp only [hex4, List.forall_mem_cons]
  exact ⟨digit _ (Nat.mod_lt _ (by decide)), digit _ (Nat.mod_lt _ (by decide)), digit _ (Nat.mod_lt _ (by decide)),
    digit _ (Nat.mod_lt _ (by decide)), by simp⟩

theorem valueText_oneLine (s : State) (value : Nat) : ∀ b ∈ s.valueText value, isTerminator b = false := by
  have printable : ∀ b : Byte, isPrintable b = true → isTerminator b = false := by decide +kernel
  unfold State.valueText
  split
  · exact hex4_oneLine _
  · intro b hb
    exact printable b (List.mem_filter.1 hb).2

/-- The response of a verb is one line, when the token it echoes holds no terminator. -/
theorem responseText_oneLine (s : State) (v : Verb) (r : Result) (echo : ∀ b ∈ echoed v, isTerminator b = false) :
    ∀ b ∈ s.responseText v r, isTerminator b = false := by
  cases v with
  | reset => exact ascii_oneLine (by decide)
  | stop => simp only [State.responseText]; split <;> exact ascii_oneLine (by decide)
  | go => exact ascii_oneLine (by decide)
  | status => simp only [State.responseText]; split <;> exact ascii_oneLine (by decide)
  | readReg reg =>
    exact append_oneLine (append_oneLine (append_oneLine (ascii_oneLine (by decide)) echo) (ascii_oneLine (by decide)))
      (hex4_oneLine _)
  | writeReg reg value =>
    exact append_oneLine (append_oneLine (append_oneLine (ascii_oneLine (by decide)) echo) (ascii_oneLine (by decide)))
      (valueText_oneLine s value)

/-- So is the report of a caught fault. -/
theorem exceptionText_oneLine (s : State) : ∀ b ∈ exceptionText s.excMessage, isTerminator b = false :=
  append_oneLine (ascii_oneLine (by decide)) (by simp [State.excMessage])

/-- A verb's response, as an end. -/
theorem Ended.answerVerb {i : Instr} {s : State} (who : answered i = true) (h : s.seq = .idle) (v : Verb)
    (echo : ∀ b ∈ echoed v, isTerminator b = false) (r : Result) :
    Ended i s (s.answerVerb v r) := by
  have e : s.answerVerb v r = { afterResponse s (s.responseText v r) with texts := (s.afterText v).texts } := by
    cases v with
    | writeReg reg value =>
      by_cases hv : value ≤ 0xFFFF <;> simp [State.answerVerb, State.afterText, hv, State.respond, State.send, State.emit, State.dropText, afterResponse, crlf, h]
    | _ => simp [State.answerVerb, State.afterText, State.respond, State.send, State.emit, afterResponse, crlf, h]
  rw [e]
  exact .response who _ _ (responseText_head s v r) (responseText_oneLine s v r echo)

/-- A caught fault, as an end. -/
theorem Ended.catchFault {i : Instr} {s : State} (who : answered i = true) (h : s.seq = .idle) (f : DispatchFault) :
    Ended i s (s.catchFault f) := by
  have e : s.catchFault f =
      { afterResponse s (exceptionText s.excMessage) with texts := s.texts.tail } := by
    simp [State.catchFault, State.dropText, State.respond, State.send, State.emit, afterResponse, crlf, h]
  rw [e]
  exact .response who _ _ (exceptionText_head _) (exceptionText_oneLine s)

/-- An operation's result, as an end. -/
theorem Ended.deliver {i : Instr} {s : State} (who : answered i = false) (h : s.seq = .idle) (r : Result) :
    Ended i s (s.deliver r) := by
  rw [deliver_idle h]
  exact .result who r

/-- What an instruction does to the machine once it is accepted. -/
def runOf : Instr → State → State
  | .regRead idx, s => (readRegister idx.toNat s).2.deliver (.word (readRegister idx.toNat s).1)
  | .regWrite idx value, s => (writeRegister idx.toNat value.toNat s).deliver .void
  | .go, s => (resume s).deliver .void
  | .armRead addrWord, s =>
    (memReadStep addrWord.toNat s).2.deliver
      (.bytes [highByte (memReadStep addrWord.toNat s).1, lowByte (memReadStep addrWord.toNat s).1])
  | .armWrite dataWord, s => (memWriteStep dataWord.toNat s).deliver .void
  | .cmdReset, s => (resetTarget s).answerVerb .reset .void
  | .cmdStop, s => (Machine.stop s).2.answerVerb .stop (.flag (Machine.stop s).1)
  | .cmdGo, s => (resume s).answerVerb .go .void
  | .cmdStatus, s => (isHalted s).2.answerVerb .status (.flag (isHalted s).1)
  | .cmdReadReg reg, s =>
    match parseHex reg with
    | .error f => s.catchFault f
    | .ok index => (readRegister index s).2.answerVerb (.readReg reg) (.word (readRegister index s).1)
  | .cmdWriteReg reg val, s =>
    match parseTwo reg val with
    | .error f => s.catchFault f
    | .ok (index, value) => (writeRegister index value s).answerVerb (.writeReg reg value) .void
  | .cmdUnknown, s => s.respond unknownText
  | .cmdEmpty, s => s
  | .cmdBlank, s => s.respond unknownText
  | .transferWord w, s => (transferWord w s).2.deliver (.word (transferWord w s).1)
  | .enterDebugMode, s => (enterDebugMode s).deliver .void
  | .isHalted, s => (isHalted s).2.deliver (.flag (isHalted s).1)
  | .stop, s => (Machine.stop s).2.deliver (.flag (Machine.stop s).1)
  | .reset, s => (resetTarget s).deliver .void
  | .resume, s => (resume s).deliver .void
  | .readRegister index, s => (readRegister index s).2.deliver (.word (readRegister index s).1)
  | .writeRegister index value, s => (writeRegister index value s).deliver .void
  | .readMemory a n, s => (readMemory a n s).2.deliver (.bytes (readMemory a n s).1)
  | .writeMemory a d, s => (writeMemory a d s).deliver .void

/-- Every instruction is accepted, or not, the same way (R232). -/
theorem exec_eq_accept (i : Instr) (s : State) : exec i s = accept s (runOf i) := by
  cases i <;> rfl

/-- What any instruction can do. -/
theorem exec_cases {i : Instr} {s t : State} (h : exec i s = .next t) :
    s.seq = .idle ∧ ∃ u, Ran i s u ∧ Ended i u t := by
  have ends {u : State} (who : answered i = false) (hi : s.seq = .idle) (r : Ran i s u) (res : Result) :
      ∃ u', Ran i s u' ∧ Ended i u' (u.deliver res) := ⟨u, r, .deliver who (r.seq_eq.trans hi) res⟩
  have responds {u : State} (who : answered i = true) (hi : s.seq = .idle) (r : Ran i s u) (v : Verb)
      (echo : ∀ b ∈ echoed v, isTerminator b = false) (res : Result) : ∃ u', Ran i s u' ∧ Ended i u' (u.answerVerb v res) :=
    ⟨u, r, .answerVerb who (r.seq_eq.trans hi) v echo res⟩
  have unknown (still : movesLines i = false) (who : answered i = true) (hi : s.seq = .idle) : ∃ u, Ran i s u ∧ Ended i u (s.respond unknownText) :=
    ⟨s, .nothing still, by
      rw [respond_idle hi]
      exact .response who unknownText s.texts (by decide) (ascii_oneLine (by decide))⟩
  have one (still : movesLines i = false) (w : Nat) : Ran i s (transferWord w s).2 := by
    obtain ⟨bits, len, sup, e⟩ := transferWord_spec w s
    rw [e]
    exact .one still len sup
  have wrote (still : movesLines i = false) (index value : Nat) : Ran i s (writeRegister index value s) := by
    obtain ⟨a, b, x, e⟩ := writeRegister_spec index value s
    rw [e]
    exact .exchanges still _ x
  have pulse (who : i = .reset ∨ i = .cmdReset) : Ran i s (resetTarget s) := by
    rw [resetTarget_spec]
    exact .pulsed who
  have look (who : i = .isHalted ∨ i = .cmdStatus) : Ran i s (isHalted s).2 := by
    obtain ⟨f, sup, e⟩ := isHalted_spec s
    rw [e]
    exact .looked who f sup
  have halt (who : i = .stop ∨ i = .cmdStop) : Ran i s (Machine.stop s).2 := by
    obtain ⟨f, sup, e⟩ := stop_spec s
    rw [e]
    exact .stopped who f sup
  rw [exec_eq_accept] at h
  obtain ⟨hi, rfl⟩ := accept_next h
  refine ⟨hi, ?_⟩
  cases i with
  | regRead idx => exact ends rfl hi (one rfl _) _
  | regWrite idx value => exact ends rfl hi (wrote rfl _ _) _
  | go => exact ends rfl hi (one rfl _) _
  | armRead addrWord =>
    obtain ⟨a, b, x, e⟩ := memReadStep_spec addrWord.toNat s
    exact ends (u := (memReadStep addrWord.toNat s).2) rfl hi (by rw [e]; exact .exchanges rfl _ x) _
  | armWrite dataWord =>
    obtain ⟨a, b, x, e⟩ := memWriteStep_spec dataWord.toNat s
    exact ends (u := memWriteStep dataWord.toNat s) rfl hi (by rw [e]; exact .exchanges rfl _ x) _
  | cmdReset => exact responds rfl hi (pulse (by simp)) _ (by simp [echoed]) _
  | cmdStop => exact responds rfl hi (halt (by simp)) _ (by simp [echoed]) _
  | cmdGo => exact responds rfl hi (one rfl _) _ (by simp [echoed]) _
  | cmdStatus => exact responds rfl hi (look (by simp)) _ (by simp [echoed]) _
  | cmdReadReg reg =>
    simp only [runOf]
    cases e : parseHex reg with
    | error f => exact ⟨s, .nothing rfl, .catchFault rfl hi f⟩
    | ok index => exact responds rfl hi (one rfl _) (.readReg reg) (parseHex_oneLine e) _
  | cmdWriteReg reg val =>
    simp only [runOf]
    cases e : parseTwo reg val with
    | error f => exact ⟨s, .nothing rfl, .catchFault rfl hi f⟩
    | ok x => exact responds rfl hi (wrote rfl _ _) (.writeReg reg x.2) (parseTwo_oneLine e) _
  | cmdUnknown => exact unknown rfl rfl hi
  | cmdEmpty => exact ⟨s, .nothing rfl, .silent rfl⟩
  | cmdBlank => exact unknown rfl rfl hi
  | transferWord w => exact ends rfl hi (one rfl _) _
  | enterDebugMode =>
    exact ends (u := enterDebugMode s) rfl hi (by rw [enterDebugMode_spec]; exact .entered rfl) _
  | isHalted => exact ends rfl hi (look (by simp)) _
  | stop => exact ends rfl hi (halt (by simp)) _
  | reset => exact ends rfl hi (pulse (by simp)) _
  | resume => exact ends rfl hi (one rfl _) _
  | readRegister index => exact ends rfl hi (one rfl _) _
  | writeRegister index value => exact ends rfl hi (wrote rfl _ _) _
  | readMemory address length =>
    obtain ⟨steps, len, x, e⟩ := readMemory_spec address length s
    exact ends (u := (readMemory address length s).2) rfl hi (by rw [e]; exact .exchanges rfl _ x) _
  | writeMemory address data =>
    obtain ⟨steps, len, x, e⟩ := writeMemory_spec address data s
    exact ends (u := writeMemory address data s) rfl hi (by rw [e]; exact .exchanges rfl _ x) _

end Sys2Proof.Machine
end

