-- ==== Sys2Proof/Laws/PerInstr.lean ====
section
/-! SUPPORT. Statements about an instruction as syntax, one lemma per constructor. -/

namespace Sys2Proof

/-- A request line ends in LF. -/
theorem requestLine_ends (ts : List (List Byte)) : (requestLine ts).getLast? = some 0x0A#8 := by
  simp [requestLine]

end Sys2Proof

namespace Sys2Proof.Laws.EncodeShape

/-- The encoder's code has the form of the instruction's row: one or two words for a wire row, with the base or the fixed
word first (R97); a line ended by LF for a command row (R100); the operation of the row itself for an operation (R232). -/
def Statement (i : Instr) : Prop :=
  ∀ cfg : Config,
    match encode cfg i with
    | .words ws => ws.length = 1 ∨ ws.length = 2
    | .line bytes => bytes.getLast? = some 0x0A#8
    | .op o => o.toInstr = i

theorem regRead (idx : BitVec 6) : Statement (.regRead idx) := fun _ => .inl rfl
theorem regWrite (idx : BitVec 6) (value : Word) : Statement (.regWrite idx value) := fun _ => .inr rfl
theorem go : Statement .go := fun _ => .inl rfl
theorem armRead (addrWord : Word) : Statement (.armRead addrWord) := fun _ => .inr rfl
theorem armWrite (dataWord : Word) : Statement (.armWrite dataWord) := fun _ => .inr rfl
theorem cmdReset : Statement .cmdReset := fun _ => requestLine_ends _
theorem cmdStop : Statement .cmdStop := fun _ => requestLine_ends _
theorem cmdGo : Statement .cmdGo := fun _ => requestLine_ends _
theorem cmdStatus : Statement .cmdStatus := fun _ => requestLine_ends _
theorem cmdReadReg (reg : List Byte) : Statement (.cmdReadReg reg) := fun _ => requestLine_ends _
theorem cmdWriteReg (reg val : List Byte) : Statement (.cmdWriteReg reg val) := fun _ => requestLine_ends _
theorem cmdUnknown : Statement .cmdUnknown := fun _ => requestLine_ends _
theorem cmdEmpty : Statement .cmdEmpty := fun _ => requestLine_ends _
theorem cmdBlank : Statement .cmdBlank := fun _ => requestLine_ends _
theorem transferWord (outgoing : Nat) : Statement (.transferWord outgoing) := fun _ => rfl
theorem enterDebugMode : Statement .enterDebugMode := fun _ => rfl
theorem isHalted : Statement .isHalted := fun _ => rfl
theorem stop : Statement .stop := fun _ => rfl
theorem reset : Statement .reset := fun _ => rfl
theorem resume : Statement .resume := fun _ => rfl
theorem readRegister (index : Nat) : Statement (.readRegister index) := fun _ => rfl
theorem writeRegister (index value : Nat) : Statement (.writeRegister index value) := fun _ => rfl
theorem readMemory (address : Addr) (length : Nat) : Statement (.readMemory address length) := fun _ => rfl
theorem writeMemory (address : Addr) (data : List Byte) : Statement (.writeMemory address data) := fun _ => rfl

end Sys2Proof.Laws.EncodeShape
end

