-- ==== Sys2Proof/Laws/Step.lean ====
section
/-! SUPPORT. Running the machine step by step: everything a step can do; steps of a busy machine are ticks, and a tick adds at
most one event; 119 ticks are one exchange; the ticks of a whole operation lead to what its definition answers. -/

namespace Sys2Proof.Machine

open Sys2Proof.Safety

/-- A step of a busy machine is a tick (R33). -/
theorem step_busy {s : State} (h : s.seq ≠ .idle) : step s = .next s.tick := by
  simp [step, portStep, h]

/-- One step of a run of any machine. -/
theorem run_succ {M : Host.Core} {s t : M.State} (k : Nat) (h : M.step s = .next t) : M.run (k + 1) s = M.run k t := by
  simp only [Host.Core.run, h]

/-- One step of a run. -/
theorem run_next {s t : State} (k : Nat) (h : step s = .next t) :
    Host.Core.run core (k + 1) s = Host.Core.run core k t := run_succ (M := core) k h

/-- Everything a step that answers a next state can do. -/
inductive Stepped (s : State) : State → Prop where
  | ticked (busy : s.seq ≠ .idle) : Stepped s s.tick
  | greeted (idle : s.seq = .idle) (first : s.bannerSent = false) : Stepped s s.sendBanner
  | requested (idle : s.seq = .idle) (opened : s.bannerSent = true) (r : Request) (rest : List Request)
      (i : Instr) (queue : s.requests = r :: rest) (code : decode s.cfg r.code = .ok i) :
      Stepped s (({ s with requests := rest } : State).start i).tick
  | dispatched (idle : s.seq = .idle) (opened : s.bannerSent = true) (noRequest : s.requests = []) (c : Byte)
      (rest : List Byte) (queue : s.fromHost = c :: rest) (ends : isTerminator c = true) :
      Stepped s (({ s with fromHost := rest, trace := s.trace ++ [.rx c] } : State).start (decodeLine s.cfg s.lineBuf))
  | received (idle : s.seq = .idle) (opened : s.bannerSent = true) (noRequest : s.requests = []) (c : Byte)
      (rest : List Byte) (queue : s.fromHost = c :: rest) (more : isTerminator c = false) :
      Stepped s { s with fromHost := rest, trace := s.trace ++ [.rx c], lineBuf := s.lineBuf ++ [c] }
  | waited (idle : s.seq = .idle) (opened : s.bannerSent = true) (noRequest : s.requests = []) (empty : s.fromHost = []) :
      Stepped s s

theorem step_cases {s t : State} (h : step s = .next t) : Stepped s t := by
  by_cases hi : s.seq = .idle
  · unfold step portStep at h
    rw [if_pos hi] at h
    unfold idleStep at h
    by_cases hb : s.bannerSent = true
    · rw [if_pos hb] at h
      split at h
      · rename_i _ r rest hq
        unfold runRequest at h
        split at h
        · rename_i i hd
          cases h
          exact .requested hi hb r rest i hq hd
        · cases h
      · rename_i c rest hq hf
        cases h
        unfold receive
        by_cases hc : isTerminator c = true
        · rw [if_pos hc]
          exact .dispatched hi hb hq c rest hf hc
        · rw [if_neg hc]
          exact .received hi hb hq c rest hf (by simpa using hc)
      · rename_i hq hf
        cases h
        exact .waited hi hb hq hf
    · rw [if_neg hb] at h
      cases h
      exact .greeted hi (by simpa using hb)
  · rw [step_busy hi] at h
    cases h
    exact .ticked hi

/-- `Ticks s n t`: `n` ticks of a busy machine, each adding one event, lead from `s` to `t`. -/
inductive Ticks : State → Nat → State → Prop where
  | done (s : State) : Ticks s 0 s
  | tick {s t : State} {n : Nat} (busy : s.seq ≠ .idle) (one : s.tick.trace.length = s.trace.length + 1)
      (rest : Ticks s.tick n t) : Ticks s (n + 1) t

theorem Ticks.run {s t : State} {n : Nat} (h : Ticks s n t) : Host.Core.run core n s = .next t := by
  induction h with
  | done => rfl
  | tick busy _ _ ih => rw [run_next _ (step_busy busy), ih]

theorem Ticks.length {s t : State} {n : Nat} (h : Ticks s n t) : t.trace.length = s.trace.length + n := by
  induction h with
  | done => rfl
  | tick _ one _ ih => omega

theorem Ticks.trans {s t u : State} {m n : Nat} (h : Ticks s m t) (k : Ticks t n u) : Ticks s (m + n) u := by
  induction h with
  | done => simpa using k
  | tick busy one _ ih => rw [Nat.add_right_comm]; exact .tick busy one (ih k)

/-- An action adds one event. -/
theorem perform_length (s : State) (a : Action) : (s.perform a).trace.length = s.trace.length + 1 := by
  cases a <;> simp [State.perform]

/-- One tick that performs an action and goes on at `q`. -/
theorem Ticks.one {s t : State} {who : Requester} {p : Position} {a : Action} (e : ({ s with seq := .running who p }).tick = t)
    (l : t.trace = (s.perform a).trace) : Ticks { s with seq := .running who p } 1 t := by
  refine .tick (by simp) ?_ (e ▸ .done t)
  rw [e, l, perform_length]

@[simp] theorem perform_seq_update (s : State) (q : Seq) (a : Action) :
    ({ s with seq := q }).perform a = { s.perform a with seq := q } := by cases a <;> rfl

@[simp] theorem sampled_seq_update (s : State) (q : Seq) (a : Action) :
    ({ s with seq := q }).sampled a = s.sampled a := by cases a <;> rfl

/-- A tick inside a bit step. -/
theorem tick_inner {s : State} {who : Requester} {p : Position} {a b : Action} {rest : List Action}
    (hl : lineScript p.op = []) (hd : (bitScript p.outgoing p.bitpos).drop p.event = a :: b :: rest) :
    Ticks { s with seq := .running who p } 1
      { s.perform a with
        seq := .running who { p with event := p.event + 1, acc := (s.sampled a).foldl shiftIn p.acc } } := by
  refine .one (a := a) ?_ rfl
  simp only [State.tick, hl, State.tickExchange, hd, perform_seq_update, sampled_seq_update]

/-- The seven ticks of the bit step at `BITPOS = n + 1`: on to the next bit step. -/
theorem bitStep_ticks (s : State) (who : Requester) (op : Operation) (k : Nat) (phase : Phase) (w n : Nat) (acc : Acc)
    (coll : List Byte) (hl : lineScript op = []) :
    Ticks { s with seq := .running who ⟨op, k, phase, w, n + 1, 0, acc, coll⟩ } 7
      { (bitStep w (n + 1) acc s).2 with
        seq := .running who ⟨op, k, phase, w, n, 0, (bitStep w (n + 1) acc s).1, coll⟩ } := by
  refine (tick_inner hl rfl).trans (m := 1) (n := 6) ?_
  refine (tick_inner hl rfl).trans (m := 1) (n := 5) ?_
  refine (tick_inner hl rfl).trans (m := 1) (n := 4) ?_
  refine (tick_inner hl rfl).trans (m := 1) (n := 3) ?_
  refine (tick_inner hl rfl).trans (m := 1) (n := 2) ?_
  refine (tick_inner hl rfl).trans (m := 1) (n := 1) ?_
  refine .one (a := .wait .qBit) ?_ rfl
  simp only [State.tick, hl, State.tickExchange]
  rfl

@[simp] theorem complete_seq_update (s : State) (q : Seq) (who : Requester) (r : Result) :
    ({ s with seq := q }).complete who r = s.complete who r := by
  cases who with
  | direct => rfl
  | verb v =>
    cases v with
    | writeReg reg value =>
      simp only [State.complete, State.afterText]
      split <;> rfl
    | _ => rfl

@[simp] theorem goTo_seq_update (s : State) (q : Seq) (who : Requester) (op : Operation) (k : Nat) (phase : Phase)
    (reply : Word) (coll : List Byte) :
    ({ s with seq := q }).goTo who op k phase reply coll = s.goTo who op k phase reply coll := by
  simp only [State.goTo, complete_seq_update]

theorem complete_trace (s : State) (who : Requester) (r : Result) : (s.complete who r).trace = s.trace := by
  cases who with
  | direct => rfl
  | verb v =>
    cases v with
    | writeReg reg value =>
      simp only [State.complete, State.afterText]
      split <;> rfl
    | _ => rfl

theorem goTo_trace (s : State) (who : Requester) (op : Operation) (k : Nat) (phase : Phase) (reply : Word)
    (coll : List Byte) : (s.goTo who op k phase reply coll).trace = s.trace := by
  simp only [State.goTo]
  split
  · rfl
  · exact complete_trace _ _ _

/-- The seven ticks of the last bit step of an exchange: on to the next exchange, or to the end. -/
theorem lastBit_ticks (s : State) (who : Requester) (op : Operation) (k : Nat) (phase : Phase) (w : Nat) (acc : Acc)
    (coll : List Byte) (hl : lineScript op = []) :
    Ticks { s with seq := .running who ⟨op, k, phase, w, 0, 0, acc, coll⟩ } 7
      ((bitStep w 0 acc s).2.exchangeDone who ⟨op, k, phase, w, 0, 0, acc, coll⟩ (bitStep w 0 acc s).1) := by
  refine (tick_inner hl rfl).trans (m := 1) (n := 6) ?_
  refine (tick_inner hl rfl).trans (m := 1) (n := 5) ?_
  refine (tick_inner hl rfl).trans (m := 1) (n := 4) ?_
  refine (tick_inner hl rfl).trans (m := 1) (n := 3) ?_
  refine (tick_inner hl rfl).trans (m := 1) (n := 2) ?_
  refine (tick_inner hl rfl).trans (m := 1) (n := 1) ?_
  refine .one (a := .wait .qBit) ?_ (goTo_trace _ _ _ _ _ _ _)
  simp only [State.tick, hl, State.tickExchange, State.exchangeDone, bitScript, List.drop, perform_seq_update,
    goTo_seq_update]
  rfl

/-- The 119 ticks of an exchange (R133): the lines, the trace and the answers are those of `transferWord`, and the
sequencer goes on to the next exchange, or to the end. -/
theorem exchange_ticks (s : State) (who : Requester) (op : Operation) (k : Nat) (phase : Phase) (w : Nat)
    (coll : List Byte) (hl : lineScript op = []) :
    Ticks { s with seq := .running who (atExchange op k phase w coll) } 119
      ((transferWord w s).2.exchangeDone who (atExchange op k phase w coll)
        ((bitSteps w 17 0#17 s).1)) := by
  have all (n : Nat) (acc : Acc) (s : State) :
      Ticks { s with seq := .running who ⟨op, k, phase, w, n, 0, acc, coll⟩ } (7 * (n + 1))
        ((bitSteps w (n + 1) acc s).2.exchangeDone who ⟨op, k, phase, w, n, 0, acc, coll⟩
          (bitSteps w (n + 1) acc s).1) := by
    induction n generalizing acc s with
    | zero => exact lastBit_ticks s who op k phase w acc coll hl
    | succ n ih =>
      rw [show 7 * (n + 1 + 1) = 7 + 7 * (n + 1) by omega]
      exact (bitStep_ticks s who op k phase w n acc coll hl).trans (ih _ _)
  exact all 16 0#17 s

/-- The ticks of an operation that only moves lines: one for each action of its script. -/
theorem line_ticks (who : Requester) (p : Position) (acts : List Action) (a : Action) (s : State)
    (hd : (lineScript p.op).drop p.event = a :: acts) :
    Ticks { s with seq := .running who p } (acts.length + 1)
      ((runScript (a :: acts) s).2.complete who
        (resultOf p.op 0#16 p.collected
          ((runScript (a :: acts) s).1.drop (scriptSamples (a :: acts).dropLast)))) := by
  induction acts generalizing a s p with
  | nil =>
    obtain ⟨x, xs, hx⟩ : ∃ x xs, lineScript p.op = x :: xs := by
      cases h : lineScript p.op with
      | nil => rw [h] at hd; simp at hd
      | cons x xs => exact ⟨x, xs, rfl⟩
    refine .one (a := a) ?_ (complete_trace _ _ _)
    simp only [State.tick, hx]
    rw [State.tickLine, hd]
    simp [runScript, scriptSamples]
  | cons b acts ih =>
    obtain ⟨x, xs, hx⟩ : ∃ x xs, lineScript p.op = x :: xs := by
      cases h : lineScript p.op with
      | nil => rw [h] at hd; simp at hd
      | cons x xs => exact ⟨x, xs, rfl⟩
    have one : Ticks { s with seq := .running who p } 1
        { s.perform a with seq := .running who { p with event := p.event + 1 } } := by
      refine .one (a := a) ?_ rfl
      simp only [State.tick, hx]
      rw [State.tickLine, hd]
      simp
    have next : (lineScript p.op).drop (p.event + 1) = b :: acts := by
      rw [← List.drop_drop, hd]; rfl
    have rest := ih { p with event := p.event + 1 } b (s.perform a) next
    rw [show (b :: acts).length + 1 = 1 + (acts.length + 1) by simp; omega]
    have samples : (runScript (a :: b :: acts) s).1.drop (scriptSamples (a :: b :: acts).dropLast) =
        (runScript (b :: acts) (s.perform a)).1.drop (scriptSamples (b :: acts).dropLast) := by
      cases a <;> rfl
    rw [samples]
    exact one.trans rest

/-! ### Whole operations -/

/-- What an operation returns and the state it leaves, as its definition has it. -/
def runOperation : Operation → State → Result × State
  | .transferWord w, s => (.word (transferWord w s).1, (transferWord w s).2)
  | .enterDebugMode, s => (.void, enterDebugMode s)
  | .isHalted, s => (.flag (isHalted s).1, (isHalted s).2)
  | .stop, s => (.flag (stop s).1, (stop s).2)
  | .reset, s => (.void, resetTarget s)
  | .resume, s => (.void, resume s)
  | .readRegister i, s => (.word (readRegister i s).1, (readRegister i s).2)
  | .writeRegister i v, s => (.void, writeRegister i v s)
  | .readMemory a n, s => (.bytes (readMemory a n s).1, (readMemory a n s).2)
  | .writeMemory a d, s => (.void, writeMemory a d s)

theorem goTo_some {s : State} {who : Requester} {op : Operation} {k : Nat} {phase : Phase} {reply : Word}
    {coll : List Byte} {w : Nat} (h : outgoingAt s.cfg op k phase = some w) :
    s.goTo who op k phase reply coll = { s with seq := .running who (atExchange op k phase w coll) } := by
  simp only [State.goTo, h]

theorem goTo_none {s : State} {who : Requester} {op : Operation} {k : Nat} {phase : Phase} {reply : Word}
    {coll : List Byte} (h : outgoingAt s.cfg op k phase = none) :
    s.goTo who op k phase reply coll = s.complete who (resultOf op reply coll []) := by
  simp only [State.goTo, h]

/-- The ticks of the exchange an operation goes to: on to the next one, or to the end. -/
theorem goTo_ticks {s : State} {who : Requester} {op : Operation} {k : Nat} {phase : Phase} {reply : Word}
    {coll : List Byte} {w : Nat} (hl : lineScript op = []) (h : outgoingAt s.cfg op k phase = some w) :
    Ticks (s.goTo who op k phase reply coll) 119
      ((transferWord w s).2.goTo who op (nextExchange k phase).1 (nextExchange k phase).2 (transferWord w s).1
        (collect (atExchange op k phase w coll) (transferWord w s).1)) := by
  rw [goTo_some h]
  exact exchange_ticks s who op k phase w coll hl

/-- The ticks of the steps of `readMemory` from offset `k` (R188). -/
theorem readSteps_ticks (a : Addr) (len : Nat) (who : Requester) (n k : Nat) (coll : List Byte) (reply : Word) (s : State)
    (left : n = (len - k) / 2) :
    ∃ m, Ticks (s.goTo who (.readMemory a len) k .first reply coll) m
      ((readSteps a n k coll s).2.complete who (.bytes (readSteps a n k coll s).1)) := by
  induction n generalizing k coll reply s with
  | zero =>
    rw [goTo_none (by simp [outgoingAt]; omega)]
    exact ⟨0, .done _⟩
  | succ n ih =>
    have arm : outgoingAt s.cfg (.readMemory a len) k .first = some s.cfg.armReadOpcode.toNat := by
      simp only [outgoingAt]
      rw [if_pos (by omega)]
    have address (t : State) : outgoingAt t.cfg (.readMemory a len) k .second = some (stepAddress a k).toNat := by
      simp only [outgoingAt]
      rw [if_pos (by omega)]
    obtain ⟨m, rest⟩ := ih (k + 2) _ _ (memReadStep (stepAddress a k).toNat s).2 (by omega)
    exact ⟨_, ((goTo_ticks rfl arm).trans (goTo_ticks rfl (address _))).trans rest⟩

/-- The ticks of the steps of `writeMemory` for the bytes from offset `k` on (R192). -/
theorem writeSteps_ticks (a : Addr) (d : List Byte) (who : Requester) (rest : List Byte) (k : Nat) (reply : Word) (s : State)
    (left : d.drop k = rest) :
    ∃ m, Ticks (s.goTo who (.writeMemory a d) k .first reply []) m ((writeSteps rest s).complete who .void) := by
  induction rest using List.twoStepInduction generalizing k reply s with
  | nil =>
    have := congrArg List.length left
    simp at this
    rw [goTo_none (by simp [outgoingAt]; omega)]
    exact ⟨0, .done _⟩
  | singleton x =>
    have := congrArg List.length left
    simp at this
    rw [goTo_none (by simp [outgoingAt]; omega)]
    exact ⟨0, .done _⟩
  | cons_cons x y rest ih _ =>
    have length := congrArg List.length left
    simp at length
    have high : d.getD k 0#8 = x := by
      have := congrArg (fun l => l.getD 0 0#8) left
      simpa [List.getD_eq_getElem?_getD] using this
    have low : d.getD (k + 1) 0#8 = y := by
      have := congrArg (fun l => l.getD 1 0#8) left
      simpa [List.getD_eq_getElem?_getD] using this
    have arm : outgoingAt s.cfg (.writeMemory a d) k .first = some s.cfg.armWriteOpcode.toNat := by
      simp only [outgoingAt]
      rw [if_pos (by omega)]
    have data (t : State) : outgoingAt t.cfg (.writeMemory a d) k .second = some (bigEndian x y).toNat := by
      simp only [outgoingAt]
      rw [if_pos (by omega), high, low]
    obtain ⟨m, more⟩ := ih (k + 2) (transferWord (bigEndian x y).toNat (transferWord s.cfg.armWriteOpcode.toNat s).2).1
      (memWriteStep (bigEndian x y).toNat s) (by rw [← List.drop_drop, left]; rfl)
    exact ⟨_, ((goTo_ticks rfl arm).trans (goTo_ticks rfl (data _))).trans more⟩

/-- The ticks of a whole operation lead to what its definition answers, on its way to whoever asked. -/
theorem begin_ticks (op : Operation) (who : Requester) (s : State) :
    ∃ m, Ticks (s.begin who op) m ((runOperation op s).2.complete who (runOperation op s).1) := by
  cases op with
  | transferWord w =>
    refine ⟨_, (goTo_ticks (s := s) (op := .transferWord w) (k := 0) (phase := .first) (reply := 0#16) rfl rfl).trans
      (n := 0) ?_⟩
    rw [goTo_none rfl]
    exact .done _
  | resume =>
    refine ⟨_, (goTo_ticks (s := s) (op := .resume) (k := 0) (phase := .first) (reply := 0#16) rfl rfl).trans (n := 0) ?_⟩
    rw [goTo_none rfl]
    exact .done _
  | readRegister i =>
    refine ⟨_, (goTo_ticks (s := s) (op := .readRegister i) (k := 0) (phase := .first) (reply := 0#16) rfl rfl).trans
      (n := 0) ?_⟩
    rw [goTo_none rfl]
    exact .done _
  | writeRegister i v =>
    refine ⟨_, ((goTo_ticks (s := s) (op := .writeRegister i v) (k := 0) (phase := .first) (reply := 0#16) rfl rfl).trans
      (goTo_ticks (op := .writeRegister i v) (k := 0) (phase := .second) rfl rfl)).trans (n := 0) ?_⟩
    rw [goTo_none rfl]
    exact .done _
  | readMemory a n => exact readSteps_ticks a n who _ 0 [] 0#16 s (by simp)
  | writeMemory a d => exact writeSteps_ticks a d who d 0 0#16 s rfl
  | enterDebugMode => exact ⟨_, line_ticks who (atExchange .enterDebugMode 0 .first 0 []) _ _ s rfl⟩
  | isHalted => exact ⟨_, line_ticks who (atExchange .isHalted 0 .first 0 []) _ _ s rfl⟩
  | stop => exact ⟨_, line_ticks who (atExchange .stop 0 .first 0 []) _ _ s rfl⟩
  | reset => exact ⟨_, line_ticks who (atExchange .reset 0 .first 0 []) _ _ s rfl⟩

/-- The one tick of a response (R213). -/
theorem respond_ticks (s : State) (text : List Byte) : Ticks { s with seq := .responding text } 1 (s.respond text) :=
  .tick (by simp) (by simp [State.tick]) (.done _)

/-- The ticks of a verb's operation and of its response. -/
theorem verb_ticks (op : Operation) (v : Verb) (s : State) :
    ∃ m, Ticks (s.begin (.verb v) op) m ((runOperation op s).2.answerVerb v (runOperation op s).1) := by
  obtain ⟨m, h⟩ := begin_ticks op (.verb v) s
  exact ⟨_, h.trans (respond_ticks _ _)⟩

/-! ### What starting and ticking leave alone -/

/-- What is about to emit its first event has the trace and the configuration from before. -/
theorem begin_trace (s : State) (who : Requester) (op : Operation) : (s.begin who op).trace = s.trace := by
  simp only [State.begin]
  split
  · rfl
  · exact goTo_trace _ _ _ _ _ _ _

theorem complete_cfg (s : State) (who : Requester) (r : Result) : (s.complete who r).cfg = s.cfg := by
  cases who with
  | direct => rfl
  | verb v =>
    cases v with
    | writeReg reg value =>
      simp only [State.complete, State.afterText]
      split <;> rfl
    | _ => rfl

theorem goTo_cfg (s : State) (who : Requester) (op : Operation) (k : Nat) (phase : Phase) (reply : Word)
    (coll : List Byte) : (s.goTo who op k phase reply coll).cfg = s.cfg := by
  simp only [State.goTo]
  split
  · rfl
  · exact complete_cfg _ _ _

theorem begin_cfg (s : State) (who : Requester) (op : Operation) : (s.begin who op).cfg = s.cfg := by
  simp only [State.begin]
  split
  · rfl
  · exact goTo_cfg _ _ _ _ _ _ _

/-- How any instruction starts: nothing to do, an operation, or a response that is due. -/
theorem start_cases (s : State) (i : Instr) :
    s.start i = s ∨ (∃ who op, s.start i = s.begin who op) ∨
      ∃ text texts, s.start i = { s with seq := .responding text, texts := texts } := by
  cases i with
  | cmdReadReg reg =>
    simp only [State.start]
    cases parseHex reg with
    | error f => exact .inr (.inr ⟨_, _, rfl⟩)
    | ok n => exact .inr (.inl ⟨_, _, rfl⟩)
  | cmdWriteReg reg val =>
    simp only [State.start]
    cases parseTwo reg val with
    | error f => exact .inr (.inr ⟨_, _, rfl⟩)
    | ok n => exact .inr (.inl ⟨_, _, rfl⟩)
  | cmdEmpty => exact .inl rfl
  | cmdUnknown => exact .inr (.inr ⟨_, s.texts, rfl⟩)
  | cmdBlank => exact .inr (.inr ⟨_, s.texts, rfl⟩)
  | _ =>
    simp only [State.start]
    exact .inr (.inl ⟨_, _, rfl⟩)

@[simp] theorem start_trace (s : State) (i : Instr) : (s.start i).trace = s.trace := by
  rcases start_cases s i with h | ⟨who, op, h⟩ | ⟨text, texts, h⟩
  · rw [h]
  · rw [h, begin_trace]
  · rw [h]

@[simp] theorem start_cfg (s : State) (i : Instr) : (s.start i).cfg = s.cfg := by
  rcases start_cases s i with h | ⟨who, op, h⟩ | ⟨text, texts, h⟩
  · rw [h]
  · rw [h, begin_cfg]
  · rw [h]

@[simp] theorem perform_cfg (s : State) (a : Action) : (s.perform a).cfg = s.cfg := by cases a <;> rfl

/-- An action adds its event. -/
theorem perform_trace (s : State) (a : Action) : ∃ e, (s.perform a).trace = s.trace ++ [e] := by
  cases a <;> exact ⟨_, rfl⟩

/-- Every tick is one of these: nothing, a response, a completion or a move without an event, or the event of an action and
where the operation goes from there. -/
theorem tick_cases (s : State) :
    (s.seq = .idle ∧ s.tick = s) ∨ (∃ text, s.seq = .responding text ∧ s.tick = s.respond text) ∨
      ∃ who p u, s.seq = .running who p ∧ (u = s ∨ ∃ a, u = s.perform a) ∧
        ((∃ q, s.tick = { u with seq := .running who q }) ∨ (∃ r, s.tick = u.complete who r) ∨
          ∃ k phase reply coll, s.tick = u.goTo who p.op k phase reply coll) := by
  cases hs : s.seq with
  | idle => exact .inl ⟨rfl, by simp [State.tick, hs]⟩
  | responding text => exact .inr (.inl ⟨text, rfl, by simp [State.tick, hs]⟩)
  | running who p =>
    refine .inr (.inr ?_)
    simp only [State.tick, hs]
    cases hl : lineScript p.op with
    | nil =>
      simp only [State.tickExchange]
      split
      · exact ⟨who, p, s, rfl, .inl rfl, .inr (.inr ⟨_, _, _, _, rfl⟩)⟩
      · rename_i a rest _
        refine ⟨who, p, s.perform a, rfl, .inr ⟨a, rfl⟩, ?_⟩
        split
        · exact .inl ⟨_, rfl⟩
        · exact .inl ⟨_, rfl⟩
        · exact .inr (.inr ⟨_, _, _, _, rfl⟩)
    | cons x xs =>
      simp only [State.tickLine]
      split
      · exact ⟨who, p, s, rfl, .inl rfl, .inr (.inl ⟨_, rfl⟩)⟩
      · rename_i a _
        exact ⟨who, p, s.perform a, rfl, .inr ⟨a, rfl⟩, .inr (.inl ⟨_, rfl⟩)⟩
      · rename_i a _ _ _
        exact ⟨who, p, s.perform a, rfl, .inr ⟨a, rfl⟩, .inl ⟨_, rfl⟩⟩

/-- A tick adds at most one event (R33). -/
theorem tick_trace (s : State) : s.tick.trace = s.trace ∨ ∃ e, s.tick.trace = s.trace ++ [e] := by
  rcases tick_cases s with ⟨-, h⟩ | ⟨text, -, h⟩ | ⟨who, p, u, -, hu, h⟩
  · exact .inl (by rw [h])
  · exact .inr ⟨_, by rw [h]; rfl⟩
  · have same : s.tick.trace = u.trace := by
      rcases h with ⟨q, h⟩ | ⟨r, h⟩ | ⟨k, phase, reply, coll, h⟩
      · rw [h]
      · rw [h, complete_trace]
      · rw [h, goTo_trace]
    rw [same]
    rcases hu with rfl | ⟨a, rfl⟩
    · exact .inl rfl
    · exact .inr (perform_trace s a)

@[simp] theorem tick_cfg (s : State) : s.tick.cfg = s.cfg := by
  rcases tick_cases s with ⟨-, h⟩ | ⟨text, -, h⟩ | ⟨who, p, u, -, hu, h⟩
  · rw [h]
  · rw [h]; rfl
  · have same : s.tick.cfg = u.cfg := by
      rcases h with ⟨q, h⟩ | ⟨r, h⟩ | ⟨k, phase, reply, coll, h⟩
      · rw [h]
      · rw [h, complete_cfg]
      · rw [h, goTo_cfg]
    rw [same]
    rcases hu with rfl | ⟨a, rfl⟩
    · rfl
    · exact perform_cfg s a

end Sys2Proof.Machine
end

