-- ==== Sys2Proof/Laws/Text.lean ====
section
/-! SUPPORT. The encodings' own operations: splitting a line into tokens (R101), taking a request off a byte stream (R100),
hexadecimal digits (R104, R107), register opcode words (R94). -/

namespace Sys2Proof

open Sys2Proof.Machine Sys2Proof.Safety

/-! ### Tokens -/

/-- A run of non-whitespace bytes is collected. -/
theorem tokensFrom_run (space : Byte → Bool) (run cur rest : List Byte) (h : ∀ b ∈ run, space b = false) :
    tokensFrom space cur (run ++ rest) = tokensFrom space (cur ++ run) rest := by
  induction run generalizing cur with
  | nil => simp
  | cons b run ih =>
    simp only [List.cons_append, tokensFrom, h b (by simp), Bool.false_eq_true, if_false]
    rw [ih _ fun b hb => h b (by simp [hb])]
    simp

/-- A gap with no token before it leaves no trace. -/
theorem tokensFrom_gap (space : Byte → Bool) (gap rest : List Byte) (h : gap.all space = true) :
    tokensFrom space [] (gap ++ rest) = tokensFrom space [] rest := by
  induction gap with
  | nil => rfl
  | cons b gap ih =>
    simp only [List.all_cons, Bool.and_eq_true] at h
    simp only [List.cons_append, tokensFrom, h.1, if_true, consToken]
    exact ih h.2

/-- A gap after a token ends it. -/
theorem tokensFrom_gap_after (space : Byte → Bool) (gap cur rest : List Byte) (hg : gap ≠ []) (hc : cur ≠ [])
    (h : gap.all space = true) : tokensFrom space cur (gap ++ rest) = cur :: tokensFrom space [] rest := by
  cases gap with
  | nil => exact absurd rfl hg
  | cons b gap =>
    simp only [List.all_cons, Bool.and_eq_true] at h
    simp only [List.cons_append, tokensFrom, h.1, if_true, consToken, hc, if_false]
    rw [tokensFrom_gap _ _ _ h.2]

/-- There is no token only where there is no non-whitespace byte. -/
theorem tokensFrom_eq_nil (space : Byte → Bool) (cur line : List Byte) :
    tokensFrom space cur line = [] ↔ cur = [] ∧ ∀ b ∈ line, space b = true := by
  induction line generalizing cur with
  | nil => simp [tokensFrom, consToken]
  | cons b rest ih =>
    simp only [tokensFrom]
    split
    · by_cases hc : cur = [] <;> simp [consToken, *]
    · rw [ih]
      simp [*]

/-- The bytes up to a terminator are the line, and what follows it is the rest of the stream. -/
theorem decodeRequest_line (cfg : Config) (line rest : List Byte) (h : ∀ b ∈ line, isTerminator b = false) :
    decodeRequest cfg (line ++ 0x0A#8 :: rest) = .ok (decodeLine cfg line, rest) := by
  have split : (line ++ 0x0A#8 :: rest).dropWhile (fun b => !isTerminator b) = 0x0A#8 :: rest ∧
      (line ++ 0x0A#8 :: rest).takeWhile (fun b => !isTerminator b) = line := by
    induction line with
    | nil => simp [isTerminator]
    | cons b tail ih =>
      have := ih fun b hb => h b (by simp [hb])
      simp [h b (by simp), this]
  simp only [decodeRequest, split]

/-! ### Hexadecimal digits -/

/-- The parser's digit is the digit of R104. -/
theorem hexDigitValue_eq (b : Byte) : hexDigitValue b = hexDigitOf b := by
  revert b
  decide +kernel

/-- A printed digit is an upper-case digit and spells its value (R107). -/
theorem hexDigit_spec (n : Nat) (h : n < 16) :
    hexDigitOf (hexDigit n) = some n ∧ hexDigit n ∈ ascii "0123456789ABCDEF" := by
  revert n
  decide +kernel

/-! ### Register opcode words -/

/-- The selector of a register opcode word is the base (R93, R94). -/
theorem registerOpcode_selector (base : Word) (index : Nat) (h : base &&& 0x3F#16 = 0#16) :
    selector (registerOpcode base index) = base := by
  have parts : base &&& (0x3F#16 ||| 0xFFC0#16) = (base &&& 0x3F#16) ||| (base &&& 0xFFC0#16) := by
    ext i hi
    simp only [BitVec.getElem_and, BitVec.getElem_or]
    cases base[i] <;> rfl
  have high : base &&& 0xFFC0#16 = base := by
    have whole : base &&& (0x3F#16 ||| 0xFFC0#16) = base := by
      rw [show 0x3F#16 ||| 0xFFC0#16 = BitVec.allOnes 16 from rfl, BitVec.and_allOnes]
    rw [parts, h] at whole
    simpa using whole
  have apart : selector (registerOpcode base index) =
      (base &&& 0xFFC0#16) ||| (BitVec.ofNat 16 index &&& (0x3F#16 &&& 0xFFC0#16)) := by
    unfold selector registerOpcode
    ext j hj
    simp only [BitVec.getElem_and, BitVec.getElem_or]
    cases base[j] <;> cases (BitVec.ofNat 16 index)[j] <;> cases (0x3F#16)[j] <;> cases (0xFFC0#16)[j] <;> rfl
  rw [apart, high]
  simp

/-- The operand bits of a register opcode word are the index modulo 64 (R60, R94). -/
theorem registerOpcode_index (base : Word) (index : Nat) (h : base &&& 0x3F#16 = 0#16) :
    (registerOpcode base index &&& 0x3F#16).toNat = index % 64 := by
  have apart : registerOpcode base index &&& 0x3F#16 =
      (base &&& 0x3F#16) ||| (BitVec.ofNat 16 index &&& 0x3F#16) := by
    unfold registerOpcode
    ext j hj
    simp only [BitVec.getElem_and, BitVec.getElem_or]
    cases base[j] <;> cases (BitVec.ofNat 16 index)[j] <;> cases (0x3F#16)[j] <;> rfl
  rw [apart, h]
  simp only [BitVec.zero_or, BitVec.toNat_and, BitVec.toNat_ofNat]
  rw [show 63 % 2 ^ 16 = 2 ^ 6 - 1 from rfl, Nat.and_two_pow_sub_one_eq_mod]
  omega

/-- An index reaches the word modulo 64 (R60). -/
theorem registerOpcode_mod (base : Word) (index : Nat) : registerOpcode base index = registerOpcode base (index % 64) := by
  unfold registerOpcode
  congr 1
  apply BitVec.eq_of_toNat_eq
  simp only [BitVec.toNat_and, BitVec.toNat_ofNat]
  rw [show 63 % 2 ^ 16 = 2 ^ 6 - 1 from rfl, Nat.and_two_pow_sub_one_eq_mod, Nat.and_two_pow_sub_one_eq_mod]
  omega

/-- For an index of six bits the mask does nothing (R94). -/
theorem registerOpcode_six (base : Word) (index : BitVec 6) :
    registerOpcode base index.toNat = base ||| index.setWidth 16 := by
  unfold registerOpcode
  congr 1
  have h : BitVec.ofNat 16 index.toNat = index.setWidth 16 := by
    apply BitVec.eq_of_toNat_eq
    simp
  rw [h]
  revert index
  decide +kernel

end Sys2Proof
end

