-- ==== Sys2Proof/Tests/Slice0.lean ====
section
/-! SUPPORT. Tests: the checks of WellFormed, words and lines written out from the encodings of `30_encoding.md`, one-step
tests from the vectors of `95_test_vectors.md`, and a state and operands for the hypotheses of every statement. -/

namespace Sys2Proof.Tests

open Sys2Proof Sys2Proof.Machine Sys2Proof.Safety

/-! ### Helpers -/

/-- Levels written as a string of `0` and `1`, blanks ignored. -/
def levels (s : String) : List Level :=
  s.toList.filterMap fun c => if c = '0' then some false else if c = '1' then some true else none

/-- Test configuration TC1, past the banner, with the target's coming answers. -/
def ready (answers : List Level) : State := { State.powerUp testConfig false with bannerSent := true, answers := answers }

/-- The same, with the clock low as after a `stop` (R39). -/
def clockLow (answers : List Level) : State := { ready answers with pins := { dout := false, clk := false, rstN := true } }

/-- The next state of an outcome, where there is one. -/
def nextOf : Host.Outcome State Fault Refusal → Option State
  | .next s => some s
  | .fault _ => none
  | .refused _ => none

/-- The levels of `DOUT` driven in a trace. -/
def doutLevels (t : List Event) : List Level :=
  t.filterMap fun e =>
    match e with
    | .drive .dout b => some b
    | _ => none

/-- What an instruction leaves: results, levels driven on `DOUT`, and the clock. -/
def outcome (i : Instr) (s : State) : Option (List Result × List Level × Level) :=
  (nextOf (exec i s)).map fun t => (t.results, doutLevels t.trace, t.pins.clk)

/-- What a command leaves: the bytes sent and the number of pin events. -/
def answerOf (i : Instr) (s : State) : Option (List Byte × Nat) :=
  (nextOf (exec i s)).map fun t => (t.toHost, (t.trace.filter isPinEvent).length)

/-- The instruction a code decodes to in TC1. -/
def read (c : Code) : Option Instr := (decode testConfig c).toOption

/-- Seventeen zero samples. -/
def zeros : List Level := List.replicate 17 false

/-! ### WellFormed: an ill-formed term for each check -/

theorem test_wf_token : (Instr.cmdReadReg [0x32#8, 0x41#8]).wf testConfig = true := by decide
theorem test_wf_refuses_empty_token : (Instr.cmdReadReg []).wf testConfig = false := by decide
theorem test_wf_refuses_space : (Instr.cmdReadReg [0x32#8, 0x20#8]).wf testConfig = false := by decide
theorem test_wf_refuses_tab : (Instr.cmdReadReg [0x09#8]).wf testConfig = false := by decide
theorem test_wf_refuses_terminator : (Instr.cmdReadReg [0x32#8, 0x0A#8]).wf testConfig = false := by decide
theorem test_wf_refuses_open_space :
    (Instr.cmdReadReg [0x0B#8]).wf { testConfig with extraSpace := [0x0B#8] } = false := by decide
theorem test_wf_write_refuses_first : (Instr.cmdWriteReg [] [0x31#8]).wf testConfig = false := by decide
theorem test_wf_write_refuses_second : (Instr.cmdWriteReg [0x31#8] [0x31#8, 0x0D#8]).wf testConfig = false := by decide

/-! ### Decoding: every row, from words and bytes written out -/

-- R93, R94, R113 with TC1: selector bits 15 to 6, operand bits 5 to 0.
theorem test_decode_regRead : read (.words [0b0010010110_101010#16]) = some (.regRead 0b101010#6) := by decide
theorem test_decode_regWrite :
    read (.words [0b0010010010_000101#16, 0x1234#16]) = some (.regWrite 0b000101#6 0x1234#16) := by decide
theorem test_decode_go : read (.words [0b0000110000000000#16]) = some .go := by decide
theorem test_decode_armRead :
    read (.words [0b0001100101000000#16, 0x0004#16]) = some (.armRead 0x0004#16) := by decide
theorem test_decode_armWrite :
    read (.words [0b0001100001000000#16, 0xDEAD#16]) = some (.armWrite 0xDEAD#16) := by decide
-- R98: no other first word; R97: the second word must be there.
theorem test_decode_refuses_word :
    decode testConfig (.words [0x0000#16]) = .error (.notAnOpcodeWord 0x0000#16) := by rfl
theorem test_decode_refuses_half_frame :
    decode testConfig (.words [0x1940#16]) = .error (.missingOperandWord 0x1940#16) := by rfl
-- R100 to R103: bytes of the lines, ended by LF or CR.
theorem test_decode_cmdReset :
    read (.line [0x52#8, 0x45#8, 0x53#8, 0x45#8, 0x54#8, 0x0A#8]) = some .cmdReset := by decide
theorem test_decode_cmdStop_extra_token :
    read (.line [0x53#8, 0x54#8, 0x4F#8, 0x50#8, 0x20#8, 0x6E#8, 0x6F#8, 0x77#8, 0x0A#8]) = some .cmdStop := by decide
theorem test_decode_cmdGo : read (.line [0x47#8, 0x4F#8, 0x0D#8]) = some .cmdGo := by decide
theorem test_decode_cmdStatus_lower_case :
    read (.line [0x73#8, 0x74#8, 0x61#8, 0x74#8, 0x75#8, 0x73#8, 0x0A#8]) = some .cmdStatus := by decide
-- E4: leading, trailing and repeated whitespace produce no token.
theorem test_decode_cmdReadReg :
    read (.line [0x20#8, 0x20#8, 0x52#8, 0x45#8, 0x41#8, 0x44#8, 0x5F#8, 0x52#8, 0x45#8, 0x47#8, 0x09#8, 0x32#8, 0x41#8,
      0x20#8, 0x20#8, 0x0A#8]) = some (.cmdReadReg [0x32#8, 0x41#8]) := by decide
theorem test_decode_cmdWriteReg :
    read (.line [0x57#8, 0x52#8, 0x49#8, 0x54#8, 0x45#8, 0x5F#8, 0x52#8, 0x45#8, 0x47#8, 0x20#8, 0x30#8, 0x35#8, 0x20#8,
      0x31#8, 0x32#8, 0x33#8, 0x34#8, 0x0D#8]) =
    some (.cmdWriteReg [0x30#8, 0x35#8] [0x31#8, 0x32#8, 0x33#8, 0x34#8]) := by decide
theorem test_decode_cmdUnknown : read (.line [0x46#8, 0x4F#8, 0x4F#8, 0x0A#8]) = some .cmdUnknown := by decide
-- P12: wrong arity, looked at before the argument (R269).
theorem test_decode_wrong_arity :
    read (.line (ascii "READ_REG ZZ 1" ++ [0x0A#8])) = some .cmdUnknown := by decide
theorem test_decode_cmdEmpty : read (.line [0x0D#8]) = some .cmdEmpty := by decide
theorem test_decode_cmdBlank : read (.line [0x20#8, 0x0A#8]) = some .cmdBlank := by decide
theorem test_decode_unterminated : decode testConfig (.line [0x47#8, 0x4F#8]) = .error .unterminatedLine := by rfl
-- R232: an operation has no bits; its request names it.
theorem test_decode_transferWord : read (.op (.transferWord 5)) = some (.transferWord 5) := by decide
theorem test_decode_enterDebugMode : read (.op .enterDebugMode) = some .enterDebugMode := by decide
theorem test_decode_isHalted : read (.op .isHalted) = some .isHalted := by decide
theorem test_decode_stop : read (.op .stop) = some .stop := by decide
theorem test_decode_reset : read (.op .reset) = some .reset := by decide
theorem test_decode_resume : read (.op .resume) = some .resume := by decide
theorem test_decode_readRegister : read (.op (.readRegister 3)) = some (.readRegister 3) := by decide
theorem test_decode_writeRegister : read (.op (.writeRegister 3 4)) = some (.writeRegister 3 4) := by decide
theorem test_decode_readMemory : read (.op (.readMemory 3#32 4)) = some (.readMemory 3#32 4) := by decide
theorem test_decode_writeMemory : read (.op (.writeMemory 3#32 [4#8])) = some (.writeMemory 3#32 [4#8]) := by decide
-- A table row's line, the first byte least significant, and the step after it is placed.
theorem test_decodeTableWord_line : decodeTableWord 40 0x0A504F5453 = some .cmdStop := by decide +kernel
theorem test_withFetchWord_line :
    (nextOf (step (State.reset.withFetchWord 32 0x0A4F4F46))).map (fun t => (t.seq, t.trace)) =
      some (.responding (ascii "ERROR: Unknown or malformed command"), [.rx 0x0A#8]) := by decide +kernel
-- R33: a frame request, and its first event.
theorem test_frame_request :
    (nextOf (step ((ready zeros).withFetchWord 16 0x25AA))).map (fun t => (t.seq, t.trace)) =
      some (.running .direct { atExchange (.readRegister 0x2A) 0 .first 0x25AA [] with event := 1 },
        [.drive .dout false]) := by decide +kernel
-- R33, R301: from reset the banner, one step for each byte, and then the first event of `GO` is due.
theorem test_sequencer_runs_from_reset :
    (nextOf (core.run 4 (State.reset.hostSends (ascii "GO" ++ [0x0A#8])))).map
        (fun t => (t.trace.drop 1, match t.seq with
          | .running _ p => (p.op, p.bitpos, p.event)
          | _ => (.stop, 0, 0))) =
      some ([.rx 0x47#8, .rx 0x4F#8, .rx 0x0A#8], .resume, 16, 0) := by decide +kernel
-- R33, R219: a `STATUS` line in nine steps: its bytes, one sample, one response.
theorem test_sequencer_status :
    (nextOf (core.run 9 { ready [true] with fromHost := ascii "STATUS" ++ [0x0D#8] })).map
        (fun t => (t.seq, t.trace.drop 7, t.lineBuf)) =
      some (.idle, [.sample .frz true, .tx (ascii "HALTED" ++ [0x0D#8, 0x0A#8])], []) := by decide +kernel

/-! ### Text (vectors E3, E6, E7) -/

theorem test_hex4 : hex4 0x00BE#16 = ascii "00BE" := by decide
theorem test_hex_leading_zeros : (parseHex (ascii "002a")).toOption = some 42 := by decide
theorem test_hex_refuses : parseHex (ascii "0x2A") = .error .nonHexArgument ∧ parseHex (ascii "2G") = .error .nonHexArgument := by
  exact ⟨rfl, rfl⟩

/-! ### One step of each instruction -/

-- L2: operand bit 16 set by the caller; status bit 1 dropped.
theorem test_transferWord_L2 :
    outcome (.transferWord 0x1FFFF) (ready (levels "1 0001 0010 0011 0100")) =
      some ([.word 0x1234#16], levels "0 1111 1111 1111 1111", true) := by decide +kernel
-- L8: entered with the clock low; the same 119 events.
theorem test_transferWord_L8 :
    (nextOf (exec (.transferWord 0x25AA) (clockLow zeros))).map (fun t => (t.trace.length, t.pins, t.answers)) =
      some (119, { dout := false, clk := true, rstN := true }, []) := by decide +kernel
-- M1.
theorem test_enterDebugMode_M1 :
    (nextOf (exec .enterDebugMode (ready []))).map (fun t => (t.trace, t.pins)) =
      some ([.drive .clk false, .drive .rstN false, .wait .tDbgAssert, .drive .rstN true, .wait .tDbgRelease],
        { dout := false, clk := false, rstN := true }) := by decide
-- M5.
theorem test_isHalted_M5 :
    (nextOf (exec .isHalted (ready [false]))).map (fun t => (t.results, t.trace)) =
      some ([.flag false], [.sample .frz false]) := by decide
-- M2, M3.
theorem test_stop_M2 : (nextOf (exec .stop (ready [true]))).map State.results = some [.flag true] := by decide
theorem test_stop_M3 :
    (nextOf (exec .stop (ready [false]))).map (fun t => (t.results, t.pins.clk, t.trace.drop 5)) =
      some ([.flag false], false, [.wait .tStopSettle, .sample .frz false]) := by decide
-- M6, M7.
theorem test_reset_M6 :
    (nextOf (exec .reset (ready []))).map (fun t => (t.trace, t.pins.clk)) =
      some ([.drive .rstN false, .wait .tRstLow, .drive .rstN true, .wait .tRstHigh], true) := by decide
theorem test_reset_M7 :
    (nextOf (exec .reset (clockLow []))).map State.pins = some { dout := false, clk := false, rstN := true } := by decide
-- M8.
theorem test_resume_M8 :
    outcome .resume (clockLow zeros) = some ([.void], levels "0 0000 1100 0000 0000", true) := by decide +kernel
-- A1, A4.
theorem test_readRegister_A1 :
    outcome (.readRegister 0x2A) (ready (levels "0 1011 1110 1110 1111")) =
      some ([.word 0xBEEF#16], levels "0 0010 0101 1010 1010", true) := by decide +kernel
theorem test_readRegister_A4 :
    outcome (.readRegister 0x12A) (ready zeros) =
      some ([.word 0x0000#16], levels "0 0010 0101 1010 1010", true) := by decide +kernel
-- A6: payloads 0x24BF, 0xFFFF.
theorem test_writeRegister_A6 :
    outcome (.writeRegister 0x3F 0xFFFF) (ready (zeros ++ zeros)) =
      some ([.void], levels "0 0010 0100 1011 1111 0 1111 1111 1111 1111", true) := by decide +kernel
-- A12: two bytes for a length of 3; A8: the second step's address, of which the wire carries 0x0000.
theorem test_readMemory_A12 :
    outcome (.readMemory 0x2000#32 3) (ready (zeros ++ levels "0 0000 0000 1111 1111")) =
      some ([.bytes [0x00#8, 0xFF#8]], levels "0 0001 1001 0100 0000 0 0010 0000 0000 0000", true) := by decide +kernel
theorem test_readMemory_A8 :
    outgoingAt testConfig (.readMemory 0x0000FFFE#32 4) 2 .second = some 0x00010000 ∧
      outgoingAt testConfig (.readMemory 0x0000FFFE#32 4) 4 .first = none := by decide
-- A13: the last byte and the address are never sent.
theorem test_writeMemory_A13 :
    outcome (.writeMemory 0x00010004#32 [0xDE#8, 0xAD#8, 0xBE#8]) (ready (zeros ++ zeros)) =
      some ([.void], levels "0 0001 1000 0100 0000 0 1101 1110 1010 1101", true) := by decide +kernel
-- The frames of R97 alone, TC1.
theorem test_regRead :
    outcome (.regRead 0x2A#6) (ready (levels "1 1011 1110 1110 1111")) =
      some ([.word 0xBEEF#16], levels "0 0010 0101 1010 1010", true) := by decide +kernel
theorem test_regWrite :
    outcome (.regWrite 5#6 0x1234#16) (ready (zeros ++ zeros)) =
      some ([.void], levels "0 0010 0100 1000 0101 0 0001 0010 0011 0100", true) := by decide +kernel
theorem test_go : outcome .go (ready zeros) = some ([.void], levels "0 0000 1100 0000 0000", true) := by decide +kernel
theorem test_armRead :
    outcome (.armRead 0x0004#16) (ready (zeros ++ levels "0 0001 0010 0011 0100")) =
      some ([.bytes [0x12#8, 0x34#8]], levels "0 0001 1001 0100 0000 0 0000 0000 0000 0100", true) := by decide +kernel
theorem test_armWrite :
    outcome (.armWrite 0xDEAD#16) (ready (zeros ++ zeros)) =
      some ([.void], levels "0 0001 1000 0100 0000 0 1101 1110 1010 1101", true) := by decide +kernel
-- P1 to P16.
theorem test_cmdReset_P1 : answerOf .cmdReset (ready []) = some (ascii "OK: CPU reset" ++ [0x0D#8, 0x0A#8], 4) := by decide
theorem test_cmdStop_P2 :
    answerOf .cmdStop (ready [true]) = some (ascii "OK: CPU halted in BDM" ++ [0x0D#8, 0x0A#8], 7) := by decide
theorem test_cmdStop_P3 :
    answerOf .cmdStop (ready [false]) = some (ascii "ERROR: Failed to halt CPU" ++ [0x0D#8, 0x0A#8], 7) := by decide
theorem test_cmdGo_P4 :
    answerOf .cmdGo (ready zeros) = some (ascii "OK: CPU resumed" ++ [0x0D#8, 0x0A#8], 119) := by decide +kernel
theorem test_cmdStatus_P5 :
    answerOf .cmdStatus (ready [true]) =
      some ([0x48#8, 0x41#8, 0x4C#8, 0x54#8, 0x45#8, 0x44#8, 0x0D#8, 0x0A#8], 1) := by decide
theorem test_cmdStatus_running :
    answerOf .cmdStatus (ready [false]) =
      some ([0x52#8, 0x55#8, 0x4E#8, 0x4E#8, 0x49#8, 0x4E#8, 0x47#8, 0x0D#8, 0x0A#8], 1) := by decide
theorem test_cmdReadReg_P6 :
    answerOf (.cmdReadReg (ascii "2A")) (ready (levels "0 1011 1110 1110 1111")) =
      some ([0x52#8, 0x45#8, 0x47#8, 0x20#8, 0x32#8, 0x41#8, 0x20#8, 0x3D#8, 0x20#8, 0x30#8, 0x78#8, 0x42#8, 0x45#8, 0x45#8,
        0x46#8, 0x0D#8, 0x0A#8], 119) := by decide +kernel
theorem test_cmdReadReg_P13 :
    answerOf (.cmdReadReg (ascii "ZZ")) { ready [] with texts := [ascii "no"] } =
      some (ascii "ERROR: Exception no" ++ [0x0D#8, 0x0A#8], 0) := by decide
theorem test_cmdWriteReg_P9 :
    answerOf (.cmdWriteReg (ascii "3f") (ascii "ffff")) (ready (zeros ++ zeros)) =
      some (ascii "REG 3f <- 0xFFFF" ++ [0x0D#8, 0x0A#8], 238) := by decide +kernel
theorem test_cmdUnknown_P11 :
    answerOf .cmdUnknown (ready []) = some (ascii "ERROR: Unknown or malformed command" ++ [0x0D#8, 0x0A#8], 0) := by
  decide
theorem test_cmdEmpty_P14 : nextOf (exec .cmdEmpty (ready [])) = some (ready []) := by decide
theorem test_cmdBlank_P15 :
    answerOf .cmdBlank (ready []) = some (ascii "ERROR: Unknown or malformed command" ++ [0x0D#8, 0x0A#8], 0) := by decide
-- S9: the banner's 41 bytes, once.
theorem test_banner :
    (nextOf (step State.reset)).map (fun t => (t.toHost.length, t.toHost.take 8, t.bannerSent)) =
      some (41, [0x4D#8, 0x43#8, 0x36#8, 0x38#8, 0x33#8, 0x33#8, 0x32#8, 0x20#8], true) := by decide +kernel

/-! ### Witnesses: a state and operands for the hypotheses of every statement -/

/-- Any instruction ends in a next state from an idle one; used for the hypotheses `exec i s = .next t`. -/
theorem runs_when_idle (i : Instr) {s : State} (h : s.seq = .idle) : ∃ t, exec i s = .next t :=
  ⟨runOf i s, by rw [exec_eq_accept, accept, if_pos h]⟩

/-- A state between two events of an exchange. -/
def inExchange : State := (ready zeros).start (.transferWord 5)

-- Encodings.
theorem witness_FrameWordsDecodeBack :
    testConfig.wf ∧ testConfig.opcodesDistinct ∧
      encode testConfig (.regWrite 0x3F#6 0xFFFF#16) = .words [0x24BF#16, 0xFFFF#16] := by decide
theorem witness_RequestLinesDecodeBack :
    (Instr.cmdReadReg [0x32#8]).wf testConfig = true ∧
      encode testConfig (.cmdReadReg [0x32#8]) =
        .line [0x52#8, 0x45#8, 0x41#8, 0x44#8, 0x5F#8, 0x52#8, 0x45#8, 0x47#8, 0x20#8, 0x32#8, 0x0A#8] := by decide
theorem witness_DecodeEncodeGivesTheInstruction :
    testConfig.wf ∧ testConfig.opcodesDistinct ∧ (Instr.cmdWriteReg [0xFF#8] [0x00#8]).wf testConfig = true := by decide
theorem witness_RegisterOpcodeIsConcatenation : (0x2580#16 : Word) &&& 0x003F#16 = 0#16 := by decide
theorem witness_FirstWordsOfFrames :
    outgoingAt testConfig (.readRegister 63) 0 .first = some 0x25BF ∧
      outgoingAt testConfig .resume 0 .first = some 0x0C00 ∧
      outgoingAt testConfig (.readMemory 0#32 2) 0 .first = some 0x1940 ∧
      outgoingAt testConfig (.writeMemory 0#32 [1#8, 2#8]) 0 .first = some 0x1840 := by decide
theorem witness_TokensAreTheRunsBetweenGaps :
    [0x20#8, 0x09#8].all (isSpace testConfig) = true ∧ [0x20#8].all (isSpace testConfig) = true ∧
      ((ascii "READ_REG") ≠ [] ∧ ∀ b ∈ ascii "READ_REG", isSpace testConfig b = false) ∧
      ∀ x ∈ [([0x20#8], ascii "2A")],
        x.1 ≠ [] ∧ x.1.all (isSpace testConfig) = true ∧ x.2 ≠ [] ∧ ∀ b ∈ x.2, isSpace testConfig b = false := by decide
theorem witness_FirstTokenNamesTheCommand_reset :
    tokens testConfig (ascii "reset x") = [ascii "reset", ascii "x"] ∧ upper (ascii "reset") = ascii "RESET" := by decide
theorem witness_FirstTokenNamesTheCommand_stop :
    tokens testConfig (ascii "STOP") = [ascii "STOP"] ∧ upper (ascii "STOP") = ascii "STOP" := by decide
theorem witness_FirstTokenNamesTheCommand_go :
    tokens testConfig (ascii "Go") = [ascii "Go"] ∧ upper (ascii "Go") = ascii "GO" := by decide
theorem witness_FirstTokenNamesTheCommand_status :
    tokens testConfig (ascii " STATUS") = [ascii "STATUS"] ∧ upper (ascii "STATUS") = ascii "STATUS" := by decide
theorem witness_FirstTokenNamesTheCommand_readReg :
    tokens testConfig (ascii "READ_REG 1") = [ascii "READ_REG", ascii "1"] ∧ upper (ascii "READ_REG") = ascii "READ_REG" ∧
      tokens testConfig (ascii "READ_REG") = [ascii "READ_REG"] ∧ ([] : List (List Byte)).length ≠ 1 ∧
      tokens testConfig (ascii "READ_REG 1 2") = [ascii "READ_REG", ascii "1", ascii "2"] ∧
      [ascii "1", ascii "2"].length ≠ 1 := by decide
theorem witness_FirstTokenNamesTheCommand_writeReg :
    tokens testConfig (ascii "WRITE_REG 1 2") = [ascii "WRITE_REG", ascii "1", ascii "2"] ∧
      upper (ascii "WRITE_REG") = ascii "WRITE_REG" ∧
      tokens testConfig (ascii "WRITE_REG 1") = [ascii "WRITE_REG", ascii "1"] ∧ [ascii "1"].length ≠ 2 := by decide
theorem witness_FirstTokenNamesTheCommand_unknown :
    tokens testConfig (ascii "GOO") = [ascii "GOO"] ∧
      upper (ascii "GOO") ∉
        [ascii "RESET", ascii "STOP", ascii "GO", ascii "STATUS", ascii "READ_REG", ascii "WRITE_REG"] := by decide
theorem witness_EmptyAndBlankLines :
    decodeLine testConfig [] = .cmdEmpty ∧ decodeLine testConfig [0x09#8] = .cmdBlank ∧
      decodeLine testConfig [0x2E#8] = .cmdUnknown := by decide
theorem witness_HexArguments_text : isHexText (ascii "0aF") ∧ hexNumber (ascii "0aF") = 175 :=
  ⟨⟨by decide, by decide⟩, by decide⟩
theorem witness_HexArguments_empty : ¬ isHexText [] := fun h => h.1 rfl
theorem witness_HexArguments_bad : ¬ isHexText (ascii "2G") := fun h => absurd (h.2 0x47#8 (by decide)) (by decide)

-- The idle state that most statements ask for.
theorem witness_idle : (ready zeros).seq = .idle ∧ (clockLow zeros).seq = .idle ∧ State.reset.seq = .idle :=
  ⟨rfl, rfl, rfl⟩

-- The Link Driver.
theorem witness_TransferWordRuns : (ready []).seq = .idle := rfl
theorem witness_TransferWordReturnsTheSamples :
    (ready (zeros ++ [true])).seq = .idle ∧ zeros.length = 17 ∧ (ready (zeros ++ [true])).answers = zeros ++ [true] :=
  ⟨rfl, rfl, rfl⟩
theorem witness_ExchangeEventCounts : ∃ t, exec (.transferWord 0xFFFF) (ready []) = .next t := runs_when_idle _ rfl
theorem witness_ExchangeClockEdges_high :
    (ready []).pins.clk = true ∧ ∃ t, exec (.transferWord 0) (ready []) = .next t := ⟨rfl, runs_when_idle _ rfl⟩
theorem witness_ExchangeClockEdges_low :
    (clockLow []).pins.clk = false ∧ ∃ t, exec (.transferWord 0) (clockLow []) = .next t := ⟨rfl, runs_when_idle _ rfl⟩
theorem witness_StatusBitChangesNothing : (ready []).seq = .idle ∧ 16 ≤ (List.replicate 16 true).length :=
  ⟨rfl, by decide⟩

-- The Mode Controller.
theorem witness_EnterDebugModeRuns : (ready []).seq = .idle := rfl
theorem witness_IsHaltedRuns : (ready [true]).seq = .idle := rfl
theorem witness_StopRuns : (ready [false]).seq = .idle := rfl
theorem witness_ResetPulseRuns : (clockLow []).seq = .idle := rfl
theorem witness_ResumeRuns :
    (clockLow zeros).seq = .idle ∧ (Instr.resume = .resume ∨ Instr.resume = .go) ∧ (Instr.go = .resume ∨ Instr.go = .go) :=
  ⟨rfl, .inl rfl, .inr rfl⟩
theorem witness_ClockIsHigh_sample : ∃ t, exec .cmdGo (clockLow zeros) = .next t := runs_when_idle _ rfl
theorem witness_ClockIsHigh_enter : ∃ t, exec .enterDebugMode (ready []) = .next t := runs_when_idle _ rfl
theorem witness_ClockIsHigh_still : ∃ t, exec .isHalted (ready [true]) = .next t := runs_when_idle _ rfl
theorem witness_ResetLine_pulse : ∃ t, exec .cmdReset (ready []) = .next t := runs_when_idle _ rfl
theorem witness_ResetLine_still : ∃ t, exec .cmdUnknown (ready []) = .next t := runs_when_idle _ rfl
theorem witness_DataLines_exchange : ∃ t, exec .go (ready zeros) = .next t := runs_when_idle _ rfl
theorem witness_DataLines_still : ∃ t, exec .cmdStop (ready [true]) = .next t := runs_when_idle _ rfl

-- The Access Layer.
theorem witness_ReadRegisterRuns : (ready zeros).seq = .idle := rfl
theorem witness_WriteRegisterRuns : (ready zeros).seq = .idle := rfl
theorem witness_ReadMemoryRuns : (ready zeros).seq = .idle := rfl
theorem witness_WriteMemoryRuns : (ready zeros).seq = .idle := rfl
theorem witness_FramesRunAlone : (ready zeros).seq = .idle := rfl
theorem witness_HighAddressBitsAreNotSent : (0x00010004#32).setWidth 16 = (0x00000004#32).setWidth 16 := by decide
theorem witness_OddLastByteIsDropped : ([0xDE#8, 0xAD#8] : List Byte).length % 2 = 0 ∧ (ready []).seq = .idle :=
  ⟨rfl, rfl⟩

/-- The fixture's target, halted, all registers zero. -/
def echo : EchoTarget.Target := { regs := List.replicate 64 0#16, mem := [], halted := true, pend := .none, wlog := [] }

theorem witness_RegisterRoundTripAgainstTheEchoTarget :
    let levels := EchoTarget.answers testConfig echo [registerOpcode 0x2480#16 63, 0xBEEF#16, registerOpcode 0x2580#16 63]
    (ready levels).seq = .idle ∧ testConfig.wf ∧ testConfig.readBase ≠ testConfig.writeBase ∧ echo.halted = true ∧
      echo.pend = .none ∧ echo.regs.length = 64 ∧ 63 < 64 ∧ (ready levels).answers = levels ++ [] := by
  refine ⟨rfl, by decide, by decide, rfl, rfl, rfl, by decide, (List.append_nil _).symm⟩

-- The command port.
theorem witness_ResetVerbRuns : (ready []).seq = .idle := rfl
theorem witness_StopVerbRuns : (ready [true]).seq = .idle := rfl
theorem witness_GoVerbRuns : (ready zeros).seq = .idle := rfl
theorem witness_StatusVerbRuns : (ready [false]).seq = .idle := rfl
theorem witness_ReadRegVerbRuns : (ready zeros).seq = .idle ∧ isHexText (ascii "2A") := ⟨rfl, by decide, by decide⟩
theorem witness_WriteRegVerbRuns :
    (ready zeros).seq = .idle ∧ isHexText (ascii "3f") ∧ isHexText (ascii "FFFF") ∧ hexNumber (ascii "FFFF") ≤ 0xFFFF :=
  ⟨rfl, ⟨by decide, by decide⟩, ⟨by decide, by decide⟩, by decide⟩
theorem witness_WideValueIsSentTruncated :
    (ready zeros).seq = .idle ∧ isHexText (ascii "3f") ∧ isHexText (ascii "10000") ∧ 0xFFFF < hexNumber (ascii "10000") :=
  ⟨rfl, ⟨by decide, by decide⟩, ⟨by decide, by decide⟩, by decide⟩
theorem witness_NonHexArgumentIsCaught_read :
    (ready []).seq = .idle ∧ ∃ reg, Instr.cmdReadReg (ascii "2G") = .cmdReadReg reg ∧ ¬ isHexText reg :=
  ⟨rfl, _, rfl, witness_HexArguments_bad⟩
theorem witness_NonHexArgumentIsCaught_write_first :
    (ready []).seq = .idle ∧ ∃ reg val, Instr.cmdWriteReg (ascii "2G") (ascii "1") = .cmdWriteReg reg val ∧
      ¬ (isHexText reg ∧ isHexText val) :=
  ⟨rfl, _, _, rfl, fun h => witness_HexArguments_bad h.1⟩
theorem witness_NonHexArgumentIsCaught_write_second :
    (ready []).seq = .idle ∧ ∃ reg val, Instr.cmdWriteReg (ascii "1") (ascii "2G") = .cmdWriteReg reg val ∧
      ¬ (isHexText reg ∧ isHexText val) :=
  ⟨rfl, _, _, rfl, fun h => witness_HexArguments_bad h.2⟩
theorem witness_UnknownAndBlankLinesAreAnswered :
    (ready []).seq = .idle ∧ (Instr.cmdUnknown = .cmdUnknown ∨ Instr.cmdUnknown = .cmdBlank) ∧
      (Instr.cmdBlank = .cmdUnknown ∨ Instr.cmdBlank = .cmdBlank) := ⟨rfl, .inl rfl, .inr rfl⟩
theorem witness_EmptyRequestDoesNothing : (ready []).seq = .idle := rfl
theorem witness_EmptyRequestDoesNothing_bare :
    let s : State := { ready [] with fromHost := [0x0D#8, 0x0A#8] }
    s.seq = .idle ∧ s.bannerSent = true ∧ s.requests = [] ∧ isTerminator 0x0D#8 = true ∧ isTerminator 0x0A#8 = true ∧
      s.fromHost = 0x0D#8 :: 0x0A#8 :: [] ∧ s.lineBuf = [] := by decide
theorem witness_EmptyRequestDoesNothing_ended :
    let s : State := { ready [] with fromHost := [0x0A#8, 0x0D#8], lineBuf := [0x47#8] }
    s.seq = .idle ∧ s.bannerSent = true ∧ s.requests = [] ∧ isTerminator 0x0A#8 = true ∧ isTerminator 0x0D#8 = true ∧
      s.fromHost = 0x0A#8 :: 0x0D#8 :: [] ∧ s.lineBuf ≠ [] := by decide

-- The machine.

/-- The state after power-up in TC1. -/
def powered : State := State.powerUp testConfig false

theorem witness_AcceptedExactlyWhenIdle_idle : (ready []).seq = .idle := rfl
theorem witness_AcceptedExactlyWhenIdle_busy : inExchange.seq ≠ .idle := by decide

/-- Past the banner, with bytes waiting. -/
def withBytes (bytes : List Byte) : State := { ready [] with fromHost := bytes }

theorem witness_StepRunsTheRequestLine_LF :
    (withBytes [0x0A#8]).seq = .idle ∧ (withBytes [0x0A#8]).bannerSent = true ∧ (withBytes [0x0A#8]).requests = [] ∧
      (withBytes [0x0A#8]).fromHost = 0x0A#8 :: [] ∧ isTerminator 0x0A#8 = true := by decide
theorem witness_StepRunsTheRequestLine_runs :
    ∃ t, exec (decodeLine testConfig (ascii "GO")) { ready [] with trace := [.rx 0x0A#8] } = .next t := runs_when_idle _ rfl
theorem witness_StepRunsTheRequestLine_CR :
    (withBytes [0x0D#8, 0x47#8]).seq = .idle ∧ (withBytes [0x0D#8, 0x47#8]).bannerSent = true ∧
      (withBytes [0x0D#8, 0x47#8]).requests = [] ∧ (withBytes [0x0D#8, 0x47#8]).fromHost = 0x0D#8 :: [0x47#8] ∧
      isTerminator 0x0D#8 = true := by decide
theorem witness_StepRunsTheRequestLine_other :
    (withBytes [0x0B#8]).seq = .idle ∧ (withBytes [0x0B#8]).bannerSent = true ∧ (withBytes [0x0B#8]).requests = [] ∧
      (withBytes [0x0B#8]).fromHost = 0x0B#8 :: [] ∧ isTerminator 0x0B#8 = false := by decide

/-- Past the banner, with a direct request waiting. -/
def withRequest (r : Request) : State := { ready [] with requests := [r] }

theorem witness_StepRunsTheDirectRequest_op :
    (withRequest (.op .stop)).seq = .idle ∧ (withRequest (.op .stop)).bannerSent = true ∧
      (withRequest (.op .stop)).requests = .op .stop :: [] ∧
      decode (withRequest (.op .stop)).cfg (Request.op .stop).code = .ok .stop := by decide
theorem witness_StepRunsTheDirectRequest_runs :
    ∃ t, exec .stop (ready []) = .next t := runs_when_idle _ rfl
theorem witness_StepRunsTheDirectRequest_no_event :
    ∃ t, exec (.readMemory 0#32 1) (ready []) = .next t ∧ t.trace.length = (ready []).trace.length := ⟨_, rfl, rfl⟩
theorem witness_StepRunsTheDirectRequest_frame :
    (withRequest (.frame [0x0C00#16])).seq = .idle ∧ (withRequest (.frame [0x0C00#16])).bannerSent = true ∧
      (withRequest (.frame [0x0C00#16])).requests = .frame [0x0C00#16] :: [] ∧
      decode (withRequest (.frame [0x0C00#16])).cfg (Request.frame [0x0C00#16]).code = .ok .go := by decide
theorem witness_BannerFirstThenWait_banner : State.reset.seq = .idle ∧ State.reset.bannerSent = false := ⟨rfl, rfl⟩
theorem witness_BannerFirstThenWait_wait :
    (ready []).seq = .idle ∧ (ready []).bannerSent = true ∧ (ready []).requests = [] ∧ (ready []).fromHost = [] :=
  ⟨rfl, rfl, rfl, rfl⟩
theorem witness_WholeLineRunsItsCommand :
    let s := withBytes [0x47#8, 0x4F#8, 0x0D#8, 0x0A#8]
    s.seq = .idle ∧ s.bannerSent = true ∧ s.requests = [] ∧ s.lineBuf = [] ∧
      (∀ b ∈ [0x47#8, 0x4F#8], isTerminator b = false) ∧ isTerminator 0x0D#8 = true ∧
      s.fromHost = [0x47#8, 0x4F#8] ++ 0x0D#8 :: [0x0A#8] := by decide
theorem witness_WholeLineRunsItsCommand_runs :
    ∃ t, exec (decodeLine testConfig [0x47#8, 0x4F#8]) { ready [] with lineBuf := [0x47#8, 0x4F#8] } = .next t :=
  runs_when_idle _ rfl
theorem witness_OneResponsePerLine :
    ascii "STATUS" ≠ [] ∧ ∃ t, exec (decodeLine testConfig (ascii "STATUS")) (ready [true]) = .next t :=
  ⟨by decide, runs_when_idle _ rfl⟩
theorem witness_ResponsesArePrintable :
    exec .cmdUnknown (ready []) = .next ((ready []).respond unknownText) ∧
      ((ready []).respond unknownText).trace = (ready []).trace ++ [] ++ [.tx (unknownText ++ [0x0D#8, 0x0A#8])] :=
  ⟨rfl, rfl⟩
theorem witness_ResponsesArePrintable_readReg :
    isHexText (ascii "2A") ∧ ∃ t, exec (.cmdReadReg (ascii "2A")) (ready zeros) = .next t :=
  ⟨⟨by decide, by decide⟩, runs_when_idle _ rfl⟩
theorem witness_PinEventsDependOnNoSample :
    (∃ t, exec (.readMemory 4#32 2) (ready []) = .next t) ∧
      ∃ u, exec (.readMemory 4#32 2) { ready [] with answers := [true], texts := [[0x41#8]] } = .next u :=
  ⟨runs_when_idle _ rfl, runs_when_idle _ rfl⟩
theorem witness_BusyStepEmitsOneEvent_any : step powered = .next powered.sendBanner := rfl
theorem witness_BusyStepEmitsOneEvent_running :
    inExchange.seq ≠ .idle ∧ ∀ who p, inExchange.seq = .running who p → positionOk inExchange.cfg p :=
  ⟨by decide, fun _ _ h => by cases h; exact ⟨by decide, by decide, rfl⟩⟩
theorem witness_BusyStepEmitsOneEvent_responding :
    ((ready []).start .cmdBlank).seq ≠ .idle ∧
      ∀ who p, ((ready []).start .cmdBlank).seq = .running who p → positionOk ((ready []).start .cmdBlank).cfg p :=
  ⟨by decide, fun _ _ h => by cases h⟩
theorem witness_EventByEventRunIsExec : (ready []).seq = .idle ∧ ∃ t, exec .stop (ready []) = .next t :=
  ⟨rfl, runs_when_idle _ rfl⟩
theorem witness_ConfigurationNeverChanges : step (ready []) = .next (ready []) := rfl
theorem witness_EveryStateTakesAFurtherStep :
    ∀ r ∈ (withRequest (.op .stop)).requests, ∃ o, r = .op o :=
  fun _ h => ⟨.stop, List.mem_singleton.mp h⟩
theorem witness_DurationsAreSumsOfDelays :
    ∀ i ∈ [Instr.transferWord 5, .enterDebugMode, .isHalted, .stop, .reset, .resume, .readRegister 5, .writeRegister 5 6,
      .readMemory 5#32 3, .writeMemory 5#32 [7#8, 8#8]], ∃ t, exec i (ready []) = .next t :=
  fun i _ => runs_when_idle i rfl

theorem witness_StepKeepsTheInvariant : Inv powered ∧ step powered = .next powered.sendBanner :=
  ⟨⟨by decide, ⟨false, rfl⟩, rfl, rfl, List.suffix_refl _, fun _ => ⟨rfl, rfl⟩, fun h => nomatch h⟩, rfl⟩
theorem witness_StepKeepsTheInvariant_busy :
    Inv (powered.sendBanner.start (.transferWord 5)) ∧
      step (powered.sendBanner.start (.transferWord 5)) = .next (powered.sendBanner.start (.transferWord 5)).tick :=
  ⟨⟨by decide, ⟨false, rfl⟩, ⟨⟨by decide, by decide, rfl⟩, rfl⟩, rfl, by decide, (fun h => nomatch h),
    fun _ => ⟨[], rfl, List.not_mem_nil⟩⟩, rfl⟩

end Sys2Proof.Tests
end

section
/-! Every instruction is a plan: an operation for a requester, one response line, or nothing. What an instruction starts and
what it answers are both read off its plan, so that a claim about every instruction has four cases. -/

namespace Sys2Proof.Machine

open Sys2Proof.Safety

/-- What an instruction asks of the machine, once its arguments are parsed (R213, R220, R232, R265). -/
inductive Plan where
  | nothing
  | operation (who : Requester) (op : Operation)
  | unknown
  | fault (f : DispatchFault)

/-- The state in which a plan is about to emit its first event. -/
def Plan.start : Plan → State → State
  | .nothing, s => s
  | .operation who op, s => s.begin who op
  | .unknown, s => { s with seq := .responding unknownText }
  | .fault f, s => s.beginFault f

/-- The state a plan ends in. -/
def Plan.run : Plan → State → State
  | .nothing, s => s
  | .operation .direct op, s => (runOperation op s).2.deliver (runOperation op s).1
  | .operation (.verb v) op, s => (runOperation op s).2.answerVerb v (runOperation op s).1
  | .unknown, s => s.respond unknownText
  | .fault f, s => s.catchFault f

/-- The plan of an instruction. A frame alone is the operation that sends just its words (R97). -/
def planOf : Instr → Plan
  | .regRead idx => .operation .direct (.readRegister idx.toNat)
  | .regWrite idx value => .operation .direct (.writeRegister idx.toNat value.toNat)
  | .go => .operation .direct .resume
  | .armRead addrWord => .operation .direct (.readMemory (addrWord.setWidth 32) 2)
  | .armWrite dataWord => .operation .direct (.writeMemory 0#32 [highByte dataWord, lowByte dataWord])
  | .cmdReset => .operation (.verb .reset) .reset
  | .cmdStop => .operation (.verb .stop) .stop
  | .cmdGo => .operation (.verb .go) .resume
  | .cmdStatus => .operation (.verb .status) .isHalted
  | .cmdReadReg reg =>
    match parseHex reg with
    | .error f => .fault f
    | .ok index => .operation (.verb (.readReg reg)) (.readRegister index)
  | .cmdWriteReg reg val =>
    match parseTwo reg val with
    | .error f => .fault f
    | .ok (index, value) => .operation (.verb (.writeReg reg value)) (.writeRegister index value)
  | .cmdUnknown => .unknown
  | .cmdEmpty => .nothing
  | .cmdBlank => .unknown
  | .transferWord w => .operation .direct (.transferWord w)
  | .enterDebugMode => .operation .direct .enterDebugMode
  | .isHalted => .operation .direct .isHalted
  | .stop => .operation .direct .stop
  | .reset => .operation .direct .reset
  | .resume => .operation .direct .resume
  | .readRegister i => .operation .direct (.readRegister i)
  | .writeRegister i v => .operation .direct (.writeRegister i v)
  | .readMemory a n => .operation .direct (.readMemory a n)
  | .writeMemory a d => .operation .direct (.writeMemory a d)

/-- An instruction starts its plan. -/
theorem start_eq_plan (i : Instr) (s : State) : s.start i = (planOf i).start s := by
  cases i with
  | cmdReadReg reg => simp only [State.start, planOf]; cases parseHex reg <;> rfl
  | cmdWriteReg reg val => simp only [State.start, planOf]; cases parseTwo reg val <;> rfl
  | _ => rfl

/-- A read of two bytes is one step at the address itself (R97, R188). -/
theorem readMemory_two (w : Word) (s : State) :
    readMemory (w.setWidth 32) 2 s =
      ([highByte (memReadStep w.toNat s).1, lowByte (memReadStep w.toNat s).1], (memReadStep w.toNat s).2) := by
  have address : (stepAddress (w.setWidth 32) 0).toNat = w.toNat := by
    have := w.isLt
    simp only [stepAddress, BitVec.add_zero, BitVec.toNat_setWidth]
    omega
  simp [readMemory, readSteps, address]

/-- A word is the big-endian word of its two bytes (R64). -/
theorem bigEndian_bytes (w : Word) : bigEndian (highByte w) (lowByte w) = w := by
  ext j hj
  by_cases low : j < 8
  · simp [bigEndian, highByte, lowByte, low, BitVec.getLsbD_eq_getElem hj]
  · have back : 8 + (j - 8) = j := by omega
    simp [bigEndian, highByte, lowByte, low, back, BitVec.getLsbD_eq_getElem hj]
    omega

/-- A write of two bytes is one step that sends their word (R97, R192). -/
theorem writeMemory_two (a : Addr) (w : Word) (s : State) :
    writeMemory a [highByte w, lowByte w] s = memWriteStep w.toNat s := by
  simp [writeMemory, writeSteps, bigEndian_bytes]

/-- An instruction ends where its plan does. -/
theorem runOf_eq_plan (i : Instr) (s : State) : runOf i s = (planOf i).run s := by
  cases i with
  | armRead addrWord => simp only [runOf, planOf, Plan.run, runOperation, readMemory_two]
  | armWrite dataWord => simp only [runOf, planOf, Plan.run, runOperation, writeMemory_two]
  | cmdReadReg reg => simp only [runOf, planOf]; cases parseHex reg <;> rfl
  | cmdWriteReg reg val => simp only [runOf, planOf]; cases parseTwo reg val <;> rfl
  | _ => rfl

/-- An instruction that answers a next state was accepted by an idle machine and ran its plan. -/
theorem exec_eq_plan {i : Instr} {s t : State} (h : exec i s = .next t) : s.seq = .idle ∧ t = (planOf i).run s := by
  rw [exec_eq_accept] at h
  obtain ⟨idle, rfl⟩ := accept_next h
  exact ⟨idle, runOf_eq_plan i s⟩

/-- The ticks of a plan lead to where it ends. -/
theorem Plan.ticks (p : Plan) (s : State) : ∃ m, Ticks (p.start s) m (p.run s) := by
  cases p with
  | nothing => exact ⟨0, .done s⟩
  | operation who op =>
    cases who with
    | direct => exact begin_ticks op .direct s
    | verb v => exact verb_ticks op v s
  | unknown => exact ⟨1, respond_ticks s _⟩
  | fault f => exact ⟨1, respond_ticks s.dropText _⟩

/-- Settles O54: the ticks of an instruction's plan add one event each, so the events count the steps. -/
theorem eventByEventRunIsExec : Obligations.EventByEventRunIsExec := by
  unfold Obligations.EventByEventRunIsExec
  intro i s t _ h
  obtain ⟨-, rfl⟩ := exec_eq_plan h
  obtain ⟨m, ticks⟩ := (planOf i).ticks s
  rw [← start_eq_plan] at ticks
  have count := ticks.length
  rw [start_trace] at count
  rw [count, Nat.add_sub_cancel_left]
  exact ticks.run

end Sys2Proof.Machine
end

section
/-! Two runs that differ in the samples and the open texts: what they still have in common (R45). -/

namespace Sys2Proof.Machine

open Sys2Proof.Safety

/-- Two states that agree on all that does not come from a sample or an open text: the configuration, the latches, `LINEBUF`
and the pin events with their levels blotted out. -/
structure Alike (s u : State) : Prop where
  cfg : s.cfg = u.cfg
  pins : s.pins = u.pins
  lineBuf : s.lineBuf = u.lineBuf
  shape : pinShape s.trace = pinShape u.trace

@[simp] theorem pinShape_append (a b : List Event) : pinShape (a ++ b) = pinShape a ++ pinShape b := by
  simp [pinShape]

/-- A byte string on the channel is no pin event. -/
@[simp] theorem pinShape_tx (text : List Byte) : pinShape [.tx text] = [] := rfl

@[simp] theorem perform_pins (s : State) (a : Action) : (s.perform a).pins = scriptPins [a] s.pins := by
  cases a <;> rfl

@[simp] theorem perform_lineBuf (s : State) (a : Action) : (s.perform a).lineBuf = s.lineBuf := by
  cases a <;> rfl

/-- The shape of an action's event is the same whatever it samples. -/
theorem perform_shape (s : State) (a : Action) :
    pinShape (s.perform a).trace = pinShape s.trace ++ [a.event false] := by
  cases a <;> exact pinShape_append _ _

theorem Alike.perform {s u : State} (h : Alike s u) (a : Action) : Alike (s.perform a) (u.perform a) :=
  ⟨by simp [h.cfg], by simp [h.pins], by simp [h.lineBuf], by simp only [perform_shape, h.shape]⟩

theorem Alike.runScript {s u : State} (h : Alike s u) (acts : List Action) :
    Alike (Machine.runScript acts s).2 (Machine.runScript acts u).2 := by
  induction acts generalizing s u with
  | nil => exact h
  | cons a rest ih => exact ih (h.perform a)

theorem Alike.transferWord {s u : State} (h : Alike s u) (w : Nat) :
    Alike (Machine.transferWord w s).2 (Machine.transferWord w u).2 := by
  simp only [Machine.transferWord, bitSteps_eq_script]
  exact h.runScript _

theorem Alike.memReadStep {s u : State} (h : Alike s u) (address : Nat) :
    Alike (Machine.memReadStep address s).2 (Machine.memReadStep address u).2 := by
  simp only [Machine.memReadStep, h.cfg]
  exact (h.transferWord _).transferWord _

theorem Alike.memWriteStep {s u : State} (h : Alike s u) (data : Nat) :
    Alike (Machine.memWriteStep data s) (Machine.memWriteStep data u) := by
  simp only [Machine.memWriteStep, h.cfg]
  exact (h.transferWord _).transferWord _

/-- The bytes read do not reach a later event of the read. -/
theorem Alike.readSteps {s u : State} (h : Alike s u) (a : Addr) (n k : Nat) (xs ys : List Byte) :
    Alike (Machine.readSteps a n k xs s).2 (Machine.readSteps a n k ys u).2 := by
  induction n generalizing k xs ys s u with
  | zero => exact h
  | succ n ih => exact ih (h.memReadStep _) _ _ _

theorem Alike.writeSteps {s u : State} (h : Alike s u) (data : List Byte) :
    Alike (Machine.writeSteps data s) (Machine.writeSteps data u) := by
  induction data using List.twoStepInduction generalizing s u with
  | nil => exact h
  | singleton b => exact h
  | cons_cons high low rest ih _ => exact ih (h.memWriteStep _)

theorem Alike.runOperation {s u : State} (h : Alike s u) (op : Operation) :
    Alike (Machine.runOperation op s).2 (Machine.runOperation op u).2 := by
  cases op with
  | transferWord w => exact h.transferWord w
  | enterDebugMode => exact h.runScript enterScript
  | isHalted => exact h.runScript haltedScript
  | stop => exact h.runScript stopScript
  | reset => exact h.runScript resetScript
  | resume =>
    simp only [Machine.runOperation, Machine.resume, h.cfg]
    exact h.transferWord _
  | readRegister i =>
    simp only [Machine.runOperation, Machine.readRegister, h.cfg]
    exact h.transferWord _
  | writeRegister i v =>
    simp only [Machine.runOperation, Machine.writeRegister, h.cfg]
    exact (h.transferWord _).transferWord _
  | readMemory a n => exact h.readSteps a _ _ _ _
  | writeMemory a d => exact h.writeSteps d

/-- Whatever the two responses say, they are no pin events and both clear `LINEBUF`. -/
theorem Alike.respond {s u : State} (h : Alike s u) (x y : List Byte) : Alike (s.respond x) (u.respond y) :=
  ⟨h.cfg, h.pins, rfl, by simp [h.shape]⟩

theorem Alike.deliver {s u : State} (h : Alike s u) (x y : Result) : Alike (s.deliver x) (u.deliver y) :=
  ⟨h.cfg, h.pins, h.lineBuf, h.shape⟩

theorem Alike.dropText {s u : State} (h : Alike s u) : Alike s.dropText u.dropText :=
  ⟨h.cfg, h.pins, h.lineBuf, h.shape⟩

theorem Alike.afterText {s u : State} (h : Alike s u) (v : Verb) : Alike (s.afterText v) (u.afterText v) := by
  cases v with
  | writeReg reg value =>
    simp only [State.afterText]
    split
    · exact h
    · exact h.dropText
  | _ => exact h

theorem Alike.run {s u : State} (h : Alike s u) (p : Plan) : Alike (p.run s) (p.run u) := by
  cases p with
  | nothing => exact h
  | operation who op =>
    cases who with
    | direct => exact (h.runOperation op).deliver _ _
    | verb v => exact ((h.runOperation op).afterText v).respond _ _
  | unknown => exact h.respond _ _
  | fault f => exact h.dropText.respond _ _

/-- Settles O52: the two runs carry out the same plan, and no step of a plan lets a sample or an open text into what they
agree on. -/
theorem pinEventsDependOnNoSample : Obligations.PinEventsDependOnNoSample := by
  unfold Obligations.PinEventsDependOnNoSample
  intro i s t u answers texts ht hu
  obtain ⟨-, rfl⟩ := exec_eq_plan ht
  obtain ⟨-, rfl⟩ := exec_eq_plan hu
  have start : Alike s { s with answers := answers, texts := texts } := ⟨rfl, rfl, rfl, rfl⟩
  obtain ⟨-, pins, lineBuf, shape⟩ := start.run (planOf i)
  exact ⟨shape, pins, lineBuf⟩

end Sys2Proof.Machine
end

section
/-! What an instruction's own events say of the lines (R23 to R27): the pin events by `Ran`, and after them nothing on a
line. -/

namespace Sys2Proof.Machine

open Sys2Proof.Safety

/-- After its pin events an instruction moves no line and samples none. -/
theorem Ended.tail {i : Instr} {u t : State} (h : Ended i u t) :
    t.pins = u.pins ∧ ∃ tail, t.trace = u.trace ++ tail ∧ ∀ e ∈ tail, isPinEvent e = false := by
  cases h with
  | result => exact ⟨rfl, [], by simp [withResult], by simp⟩
  | response => exact ⟨rfl, _, rfl, by simp [isPinEvent]⟩
  | silent => exact ⟨rfl, [], by simp, by simp⟩

/-- The events of any instruction: those of what it ran, then a tail without pin events. -/
theorem exec_events {i : Instr} {s t : State} (h : exec i s = .next t) :
    ∃ u tail, Ran i s u ∧ t.pins = u.pins ∧ t.trace = u.trace ++ tail ∧ ∀ e ∈ tail, isPinEvent e = false := by
  obtain ⟨-, u, ran, ended⟩ := exec_cases h
  obtain ⟨pins, tail, trace, quiet⟩ := ended.tail
  exact ⟨u, tail, ran, pins, trace, quiet⟩

/-- A pin event is among the events of an instruction when it is among those it ran. -/
theorem mem_append_quiet {e : Event} {es tail : List Event} (pin : isPinEvent e = true)
    (quiet : ∀ e ∈ tail, isPinEvent e = false) : e ∈ es ++ tail ↔ e ∈ es := by
  have : e ∉ tail := fun h => by simp [quiet e h] at pin
  simp [this]

/-- Events of which the tail has none are counted in what the instruction ran. -/
theorem filter_append_quiet {f : Event → Bool} {es tail : List Event} (pin : ∀ e, f e = true → isPinEvent e = true)
    (quiet : ∀ e ∈ tail, isPinEvent e = false) : (es ++ tail).filter f = es.filter f := by
  have : tail.filter f = [] := List.filter_eq_nil_iff.2 fun e he hf => by
    simpa [pin e hf] using quiet e he
  simp [this]

/-- A list of exchanges samples `DIN` unless it is empty. -/
theorem sample_mem_exchanges {xs : List (Nat × List Level)} (h : xs ≠ []) :
    ∃ b, Event.sample .din b ∈ xs.flatMap fun x => exchangeEvents x.1 x.2 := by
  obtain ⟨x, rest, rfl⟩ := List.exists_cons_of_ne_nil h
  exact ⟨_, List.mem_flatMap.2 ⟨x, by simp, sample_mem_exchangeEvents _ _⟩⟩

/-- No exchange drives `RST_N`. -/
theorem not_mem_exchanges_rstN (xs : List (Nat × List Level)) (b : Level) :
    Event.drive .rstN b ∉ xs.flatMap fun x => exchangeEvents x.1 x.2 := by
  intro h
  obtain ⟨x, -, h⟩ := List.mem_flatMap.1 h
  simpa using mem_exchangeEvents h

/-- The clock after what an instruction ran (R24, R153). -/
theorem Ran.clock {i : Instr} {s u : State} (h : Ran i s u) :
    ∃ es, u.trace = s.trace ++ es ∧
      ((∃ b, Event.sample .din b ∈ es) → u.pins.clk = true) ∧
      ((∀ b, Event.sample .din b ∉ es) → Event.drive .clk false ∈ es →
        u.pins.clk = false ∧ i ∈ [Instr.enterDebugMode, Instr.stop, Instr.cmdStop]) ∧
      ((∀ b, Event.sample .din b ∉ es) → Event.drive .clk false ∉ es → u.pins.clk = s.pins.clk) := by
  cases h with
  | nothing => exact ⟨[], by simp, by simp, by simp, by simp⟩
  | exchanges who xs taken =>
    refine ⟨_, afterExchanges_trace xs s, ?_⟩
    rw [afterExchanges_clk]
    by_cases none : xs = []
    · simp [none]
    · obtain ⟨b, sampled⟩ := sample_mem_exchanges none
      exact ⟨by simp [none], fun unsampled => absurd sampled (unsampled b), fun unsampled => absurd sampled (unsampled b)⟩
  | entered who => exact ⟨enterEvents, rfl, by simp [enterEvents], by simp [who], by simp [enterEvents]⟩
  | stopped who f =>
    exact ⟨stopEvents f, rfl, by simp [stopEvents, enterEvents], by rcases who with rfl | rfl <;> simp [afterStop],
      by simp [stopEvents, enterEvents]⟩
  | pulsed => exact ⟨resetEvents, rfl, by simp [resetEvents], by simp [resetEvents], by simp [afterReset]⟩
  | looked who f => exact ⟨[.sample .frz f], rfl, by simp, by simp, by simp [afterIsHalted]⟩

/-- Settles O23: the clauses of `Ran.clock`, which the tail of the events does not touch. -/
theorem clockIsHighAfterEveryExchange : Obligations.ClockIsHighAfterEveryExchange := by
  unfold Obligations.ClockIsHighAfterEveryExchange
  intro i s t h
  obtain ⟨u, tail, ran, pins, trace, quiet⟩ := exec_events h
  obtain ⟨es, ranTrace, clock⟩ := ran.clock
  refine ⟨es ++ tail, by rw [trace, ranTrace, List.append_assoc], ?_⟩
  have sampled (b : Level) : Event.sample .din b ∈ es ++ tail ↔ Event.sample .din b ∈ es := mem_append_quiet rfl quiet
  have lowered : Event.drive .clk false ∈ es ++ tail ↔ Event.drive .clk false ∈ es := mem_append_quiet rfl quiet
  simpa only [pins, sampled, lowered] using clock

/-- The reset line after what an instruction ran (R25, R150). -/
theorem Ran.resetLine {i : Instr} {s u : State} (h : Ran i s u) :
    ∃ es, u.trace = s.trace ++ es ∧
      ((∃ b, Event.drive .rstN b ∈ es) →
        i ∈ [Instr.enterDebugMode, Instr.stop, Instr.cmdStop, Instr.reset, Instr.cmdReset] ∧ u.pins.rstN = true) ∧
      ((∀ b, Event.drive .rstN b ∉ es) → u.pins.rstN = s.pins.rstN) := by
  cases h with
  | nothing => exact ⟨[], by simp, by simp, by simp⟩
  | exchanges who xs taken =>
    exact ⟨_, afterExchanges_trace xs s, fun ⟨b, driven⟩ => absurd driven (not_mem_exchanges_rstN xs b),
      fun _ => afterExchanges_rstN xs s⟩
  | entered who => exact ⟨enterEvents, rfl, by simp [who], by simp [enterEvents]⟩
  | stopped who f =>
    exact ⟨stopEvents f, rfl, by rcases who with rfl | rfl <;> simp [afterStop], by simp [stopEvents, enterEvents]⟩
  | pulsed who =>
    exact ⟨resetEvents, rfl, by rcases who with rfl | rfl <;> simp [afterReset], by simp [resetEvents]⟩
  | looked who f => exact ⟨[.sample .frz f], rfl, by simp, by simp [afterIsHalted]⟩

/-- Settles O24: the clauses of `Ran.resetLine`, which the tail of the events does not touch. -/
theorem resetLineIsReleasedAgain : Obligations.ResetLineIsReleasedAgain := by
  unfold Obligations.ResetLineIsReleasedAgain
  intro i s t h
  obtain ⟨u, tail, ran, pins, trace, quiet⟩ := exec_events h
  obtain ⟨es, ranTrace, line⟩ := ran.resetLine
  refine ⟨es ++ tail, by rw [trace, ranTrace, List.append_assoc], ?_⟩
  have driven (b : Level) : Event.drive .rstN b ∈ es ++ tail ↔ Event.drive .rstN b ∈ es := mem_append_quiet rfl quiet
  simpa only [pins, driven] using line

/-- Is the event one on the data line out, driven at either level? -/
abbrev drivesDout (e : Event) : Bool := e == .drive .dout false || e == .drive .dout true

/-- Does the event sample the input line, at either level? -/
abbrev samplesLine (p : InLine) (e : Event) : Bool := e == .sample p false || e == .sample p true

theorem drivesDout_pin (e : Event) (h : drivesDout e = true) : isPinEvent e = true := by
  simp only [drivesDout, Bool.or_eq_true, beq_iff_eq] at h
  rcases h with rfl | rfl <;> rfl

theorem samplesLine_pin (p : InLine) (e : Event) (h : samplesLine p e = true) : isPinEvent e = true := by
  simp only [samplesLine, Bool.or_eq_true, beq_iff_eq] at h
  rcases h with rfl | rfl <;> rfl

/-- An event counted once in every bit step is counted 17 times in an exchange. -/
theorem countP_exchangeEvents {f : Event → Bool} {n : Nat} (h : ∀ w p b, (bitStepEvents w p b).countP f = n) (w : Nat)
    (bits : List Level) : (exchangeEvents w bits).countP f = 17 * n := by
  simp [exchangeEvents, List.countP_flatMap, Function.comp_def, h]
  omega

theorem countP_exchanges {f : Event → Bool} {n : Nat} (h : ∀ w p b, (bitStepEvents w p b).countP f = n)
    (xs : List (Nat × List Level)) :
    (xs.flatMap fun x => exchangeEvents x.1 x.2).countP f = xs.length * (17 * n) := by
  simp [List.countP_flatMap, Function.comp_def, countP_exchangeEvents h]

theorem bitStep_drivesDout (w p : Nat) (b : Level) : (bitStepEvents w p b).countP drivesDout = 1 := by
  simp only [bitStepEvents]
  cases (if p = 16 then false else w.testBit p) <;> rfl

theorem bitStep_samplesDin (w p : Nat) (b : Level) : (bitStepEvents w p b).countP (samplesLine .din) = 1 := by
  cases b <;> rfl

theorem bitStep_samplesFrz (w p : Nat) (b : Level) : (bitStepEvents w p b).countP (samplesLine .frz) = 0 := by
  cases b <;> rfl

/-- The instructions that ask whether the target is halted, alone or at the end of `stop` (R154, R155). -/
abbrev haltedQueries : List Instr := [.isHalted, .stop, .cmdStop, .cmdStatus]

/-- A halted query moves lines or looks at them, so what makes exchanges or nothing is none. -/
theorem not_mem_haltedQueries {i : Instr} (h : movesLines i = false) : i ∉ haltedQueries := by
  simp only [haltedQueries, List.mem_cons, List.not_mem_nil, or_false]
  rintro (rfl | rfl | rfl | rfl) <;> cases h

/-- The data lines after what an instruction ran (R23, R26, R27). -/
theorem Ran.dataLines {i : Instr} {s u : State} (h : Ran i s u) :
    ∃ es, u.trace = s.trace ++ es ∧ es.countP drivesDout = es.countP (samplesLine .din) ∧
      ((∀ b, Event.sample .din b ∉ es) → u.pins.dout = s.pins.dout) ∧
      es.countP (samplesLine .frz) = if i ∈ haltedQueries then 1 else 0 := by
  cases h with
  | nothing who => exact ⟨[], by simp, rfl, by simp, by simp only [not_mem_haltedQueries who]; rfl⟩
  | exchanges who xs taken =>
    refine ⟨_, afterExchanges_trace xs s, ?_, fun unsampled => ?_, ?_⟩
    · rw [countP_exchanges bitStep_drivesDout, countP_exchanges bitStep_samplesDin]
    · have none : xs = [] := by
        by_contra some
        obtain ⟨b, sampled⟩ := sample_mem_exchanges some
        exact unsampled b sampled
      simp [none, afterExchanges]
    · rw [countP_exchanges bitStep_samplesFrz, if_neg (not_mem_haltedQueries who)]
      simp
  | entered who => exact ⟨enterEvents, rfl, rfl, by simp, by subst who; rfl⟩
  | stopped who f =>
    refine ⟨stopEvents f, rfl, ?_, by simp [afterStop], ?_⟩
    · cases f <;> rfl
    · rcases who with rfl | rfl <;> cases f <;> rfl
  | pulsed who => exact ⟨resetEvents, rfl, rfl, by simp [afterReset], by rcases who with rfl | rfl <;> rfl⟩
  | looked who f =>
    refine ⟨[.sample .frz f], rfl, ?_, by simp [afterIsHalted], ?_⟩
    · cases f <;> rfl
    · rcases who with rfl | rfl <;> cases f <;> rfl

/-- Settles O25: the counts of `Ran.dataLines`, to which the tail of the events adds nothing. -/
theorem dataLinesBelongToTheExchange : Obligations.DataLinesBelongToTheExchange := by
  unfold Obligations.DataLinesBelongToTheExchange
  intro i s t h
  obtain ⟨u, tail, ran, pins, trace, quiet⟩ := exec_events h
  obtain ⟨es, ranTrace, counts, dout, frz⟩ := ran.dataLines
  refine ⟨es ++ tail, by rw [trace, ranTrace, List.append_assoc], ?_, fun unsampled => ?_, ?_⟩
  · rw [filter_append_quiet drivesDout_pin quiet, filter_append_quiet (samplesLine_pin .din) quiet,
      ← List.countP_eq_length_filter, ← List.countP_eq_length_filter, counts]
  · rw [pins, dout fun b sampled => unsampled b (List.mem_append_left _ sampled)]
  · rw [filter_append_quiet (samplesLine_pin .frz) quiet, ← List.countP_eq_length_filter, frz]

end Sys2Proof.Machine
end

section
/-! What every step does (R33, R35): it keeps the configuration and emits one event, or none where nothing is in
progress. -/

namespace Sys2Proof.Machine

open Sys2Proof.Safety

/-- Settles O55, by the kinds of step. -/
theorem configurationNeverChanges : Obligations.ConfigurationNeverChanges := by
  unfold Obligations.ConfigurationNeverChanges
  intro s t h
  cases step_cases h with
  | ticked => exact tick_cfg s
  | greeted => rfl
  | requested => simp
  | dispatched => simp
  | received => rfl
  | waited => rfl

/-- The level of `RST_N` at a position: where the events of the line script so far have left it (R25). -/
def rstAt (p : Position) : Level := rstAfter true ((lineScript p.op).take p.event)

/-- The state after the tick of an operation at a position: an action, whose event is the tick's only one, and then the next
position, the end of the operation, or the next exchange. `RST_N` is where the new position has it, and released at the
end. -/
inductive Moved (s : State) (who : Requester) (p : Position) (a : Action) : State → Prop where
  | within (q : Position) (ok : positionOk s.cfg q) (level : rstAfter (rstAt p) [a] = rstAt q) :
      Moved s who p a { s.perform a with seq := .running who q }
  | ended (r : Result) (level : rstAfter (rstAt p) [a] = true) : Moved s who p a ((s.perform a).complete who r)
  | nextExchange (k : Nat) (phase : Phase) (reply : Word) (coll : List Byte) (still : lineScript p.op = [])
      (level : rstAfter (rstAt p) [a] = true) : Moved s who p a ((s.perform a).goTo who p.op k phase reply coll)

theorem rstAfter_append (level : Level) (xs ys : List Action) :
    rstAfter level (xs ++ ys) = rstAfter (rstAfter level xs) ys := by
  induction xs generalizing level with
  | nil => rfl
  | cons a rest ih =>
    cases a with
    | drive l b => cases l <;> exact ih _
    | _ => exact ih _

/-- The actions of a bit step leave `RST_N` alone. -/
theorem rstAfter_bitScript {w n : Nat} {a : Action} (h : a ∈ bitScript w n) (level : Level) :
    rstAfter level [a] = level := by
  simp only [bitScript, List.mem_cons, List.not_mem_nil, or_false] at h
  rcases h with rfl | rfl | rfl | rfl | rfl | rfl | rfl <;> rfl

/-- Every line script leaves `RST_N` released (R150). -/
theorem rstAfter_lineScript (op : Operation) : rstAfter true (lineScript op) = true := by
  cases op <;> rfl

/-- In an operation made of exchanges `RST_N` is released throughout. -/
theorem rstAt_still {p : Position} (still : lineScript p.op = []) : rstAt p = true := by
  simp [rstAt, still, rstAfter]

/-- The level after the next action of a line script. -/
theorem rstAt_next {p : Position} {a : Action} {rest : List Action} (h : (lineScript p.op).drop p.event = a :: rest) :
    rstAfter (rstAt p) [a] = rstAfter true ((lineScript p.op).take (p.event + 1)) := by
  have here : (lineScript p.op)[p.event]? = some a := by
    rw [← List.head?_drop, h]; rfl
  rw [List.take_add_one, here, rstAfter_append]
  rfl

theorem positionOk_still {cfg : Config} {p : Position} (still : lineScript p.op = []) :
    positionOk cfg p ↔ p.event < 7 ∧ p.bitpos ≤ 16 ∧ outgoingAt cfg p.op p.offset p.phase = some p.outgoing := by
  simp only [positionOk, still]

theorem positionOk_line {cfg : Config} {p : Position} (moves : lineScript p.op ≠ []) :
    positionOk cfg p ↔ p.event < (lineScript p.op).length := by
  obtain ⟨a, rest, h⟩ := List.exists_cons_of_ne_nil moves
  simp only [positionOk, h]

/-- A tick of an operation that only moves lines. -/
theorem tickLine_moved {s : State} {who : Requester} {p : Position} (moves : lineScript p.op ≠ [])
    (ok : positionOk s.cfg p) : ∃ a, Moved s who p a (s.tickLine who p) := by
  rw [positionOk_line moves] at ok
  simp only [State.tickLine]
  split
  · rename_i past
    rw [List.drop_eq_nil_iff] at past
    omega
  · rename_i a last
    refine ⟨a, .ended _ ?_⟩
    have length := congrArg List.length last
    simp only [List.length_drop, List.length_singleton] at length
    rw [rstAt_next last, List.take_of_length_le (by omega), rstAfter_lineScript]
  · rename_i a b rest more
    have length := congrArg List.length more
    simp only [List.length_drop, List.length_cons] at length
    have within : p.event + 1 < (lineScript p.op).length := by omega
    exact ⟨a, .within { p with event := p.event + 1 } ((positionOk_line (by exact moves)).2 within) (rstAt_next more)⟩

/-- A tick of an exchange. -/
theorem tickExchange_moved {s : State} {who : Requester} {p : Position} (still : lineScript p.op = [])
    (ok : positionOk s.cfg p) : ∃ a, Moved s who p a (s.tickExchange who p) := by
  obtain ⟨event, bitpos, word⟩ := (positionOk_still still).1 ok
  simp only [State.tickExchange]
  split
  · rename_i past
    rw [List.drop_eq_nil_iff] at past
    simp only [bitScript, List.length_cons, List.length_nil] at past
    omega
  · rename_i a rest more
    have length := congrArg List.length more
    simp only [List.length_drop, bitScript, List.length_cons, List.length_nil] at length
    have level : rstAfter (rstAt p) [a] = true := by
      rw [rstAfter_bitScript (List.mem_of_mem_drop (by rw [more]; exact List.mem_cons_self)), rstAt_still still]
    refine ⟨a, ?_⟩
    have stay (q : Position) (op : q.op = p.op)
        (place : q.event < 7 ∧ q.bitpos ≤ 16 ∧ outgoingAt s.cfg q.op q.offset q.phase = some q.outgoing) :
        Moved s who p a { s.perform a with seq := .running who q } := by
      have qStill : lineScript q.op = [] := op ▸ still
      exact .within q ((positionOk_still qStill).2 place) (level.trans (rstAt_still qStill).symm)
    split
    · rw [List.length_cons] at length
      have event : p.event + 1 < 7 := by omega
      exact stay _ rfl ⟨event, bitpos, word⟩
    · rename_i n pos
      have lower : n ≤ 16 := by omega
      exact stay _ rfl ⟨Nat.zero_lt_succ 6, lower, word⟩
    · exact .nextExchange _ _ _ _ still level

/-- A tick of an operation in progress. -/
theorem tick_moved {s : State} {who : Requester} {p : Position} (running : s.seq = .running who p)
    (ok : positionOk s.cfg p) : ∃ a, Moved s who p a s.tick := by
  simp only [State.tick, running]
  split
  · rename_i still
    exact tickExchange_moved still ok
  · rename_i a rest moves
    exact tickLine_moved (by simp [moves]) ok

/-- The tick's trace is the one after its action. -/
theorem Moved.trace {s t : State} {who : Requester} {p : Position} {a : Action} (h : Moved s who p a t) :
    t.trace = (s.perform a).trace := by
  cases h with
  | within => rfl
  | ended => exact complete_trace _ _ _
  | nextExchange => exact goTo_trace _ _ _ _ _ _ _

/-- Every step emits at most one event. -/
theorem step_trace {s t : State} (h : step s = .next t) : t.trace = s.trace ∨ ∃ e, t.trace = s.trace ++ [e] := by
  cases step_cases h with
  | ticked => exact tick_trace s
  | greeted => exact .inr ⟨_, rfl⟩
  | requested _ _ r rest i => simpa using tick_trace (({ s with requests := rest } : State).start i)
  | dispatched _ _ _ c => exact .inr ⟨.rx c, by simp⟩
  | received _ _ _ c => exact .inr ⟨.rx c, rfl⟩
  | waited => exact .inl rfl

/-- Settles O53: a busy step is a tick, and the tick of a response or of a position that can be has one event. -/
theorem busyStepEmitsOneEvent : Obligations.BusyStepEmitsOneEvent := by
  unfold Obligations.BusyStepEmitsOneEvent
  refine ⟨fun s t => step_trace, fun s busy ok => ?_⟩
  cases seq : s.seq with
  | idle => exact absurd seq busy
  | responding text => exact ⟨.tx (text ++ crlf), s.tick, step_busy busy, by simp [State.tick, seq]⟩
  | running who p =>
    obtain ⟨a, moved⟩ := tick_moved seq (ok who p seq)
    obtain ⟨e, trace⟩ := perform_trace s a
    exact ⟨e, s.tick, step_busy busy, moved.trace.trans trace⟩

end Sys2Proof.Machine
end

section
/-! Every step keeps the invariant (R22, R25, R31, R33, R40, R210, R212). The part of it that only the trace and the queues
bear on is `Recorded`; a state in which an operation can begin, end or go on to its next exchange is `Poised`. -/

namespace Sys2Proof.Machine

open Sys2Proof.Safety

/-! ### What the trace says -/

theorem replay_append (p : Pins) (t : List Event) (e : Event) : replay p (t ++ [e]) = pinsAfter (replay p t) e := by
  simp [replay]

@[simp] theorem lineOf_append (t : List Event) (e : Event) : lineOf (t ++ [e]) = lineAfter (lineOf t) e := by
  simp [lineOf]

theorem sent_append (t : List Event) (e : Event) : sent (t ++ [e]) = sent t ++ sentBy e := by
  simp [sent]

/-- The part of the invariant that `SEQ` and `LINEBUF` do not enter, past the banner. -/
structure Recorded (s : State) : Prop where
  cfg_wf : s.cfg.wf
  pins_replay : ∃ d, s.pins = replay { dout := d, clk := true, rstN := true } s.trace
  sent_ok : s.toHost <:+ sent s.trace
  opened : s.bannerSent = true
  banner_once : ∃ t, s.trace = .tx (banner ++ crlf) :: t ∧ Event.tx (banner ++ crlf) ∉ t

theorem Recorded.inv {s : State} (h : Recorded s) (seq : seqOk s) (line : lineOk s) : Inv s :=
  ⟨h.cfg_wf, h.pins_replay, seq, line, h.sent_ok, fun closed => by simp [h.opened] at closed, fun _ => h.banner_once⟩

theorem recorded_of_inv {s : State} (h : Inv s) (opened : s.bannerSent = true) : Recorded s :=
  ⟨h.cfg_wf, h.pins_replay, h.sent_ok, opened, h.banner_once opened⟩

/-- An operation is in progress only past the banner. -/
theorem opened_of_busy {s : State} (h : Inv s) (busy : s.seq ≠ .idle) : s.bannerSent = true := by
  by_contra closed
  exact busy (h.quiet (by simpa using closed)).2

/-- An event that is no second banner, with what it does to the latches and to the host's queue, keeps the record. -/
theorem Recorded.emits {s t : State} {e : Event} (h : Recorded s) (cfg : t.cfg = s.cfg)
    (opened : t.bannerSent = s.bannerSent) (trace : t.trace = s.trace ++ [e]) (pins : t.pins = pinsAfter s.pins e)
    (toHost : t.toHost = s.toHost ++ sentBy e) (other : e ≠ .tx (banner ++ crlf)) : Recorded t := by
  obtain ⟨d, replayed⟩ := h.pins_replay
  obtain ⟨before, queue⟩ := h.sent_ok
  obtain ⟨later, first, once⟩ := h.banner_once
  refine ⟨cfg ▸ h.cfg_wf, ⟨d, ?_⟩, ⟨before, ?_⟩, opened.trans h.opened, later ++ [e], ?_, ?_⟩
  · rw [pins, trace, replay_append, replayed]
  · rw [toHost, trace, sent_append, ← queue, List.append_assoc]
  · rw [trace, first, List.cons_append]
  · simp [once, other.symm]

theorem Recorded.perform {s : State} (h : Recorded s) (a : Action) : Recorded (s.perform a) := by
  cases a with
  | drive p b => exact h.emits (e := .drive p b) rfl rfl rfl rfl (List.append_nil _).symm (by simp)
  | wait d => exact h.emits (e := .wait d) rfl rfl rfl rfl (List.append_nil _).symm (by simp)
  | sample p => exact h.emits (e := .sample p (s.answer p)) rfl rfl rfl rfl (List.append_nil _).symm (by simp)

/-- A response line is told from the banner by its first byte. -/
theorem Recorded.respond {s : State} (h : Recorded s) {text : List Byte} (head : text.head? ≠ banner.head?) :
    Recorded (s.respond text) := by
  refine h.emits (e := .tx (text ++ crlf)) rfl rfl rfl rfl rfl fun same => head ?_
  rw [List.append_cancel_right (Event.tx.inj same)]

@[simp] theorem lineOf_perform (s : State) (a : Action) : lineOf (s.perform a).trace = lineOf s.trace := by
  cases a <;> exact lineOf_append _ _

theorem perform_rstN (s : State) (a : Action) : (s.perform a).pins.rstN = rstAfter s.pins.rstN [a] := by
  cases a with
  | drive p b => cases p <;> rfl
  | _ => rfl

/-! ### Between the operations and their exchanges -/

/-- What `LINEBUF` must be while an operation of this requester is in progress (R31, R210). -/
def lineFor : Requester → State → Prop
  | .direct, s => s.lineBuf = lineOf s.trace
  | .verb _, s => lineOf s.trace = []

theorem lineOk_running {s : State} {who : Requester} {p : Position} (seq : s.seq = .running who p) :
    lineOk s ↔ lineFor who s := by
  cases who <;> simp only [lineOk, seq, lineFor]

theorem seqOk_running {s : State} {who : Requester} {p : Position} (seq : s.seq = .running who p) :
    seqOk s ↔ positionOk s.cfg p ∧ s.pins.rstN = rstAt p := by
  simp only [seqOk, seq, rstAt]

theorem lineFor_perform {who : Requester} {s : State} (h : lineFor who s) (a : Action) : lineFor who (s.perform a) := by
  cases who <;> simpa [lineFor] using h

/-- An operation of this requester can begin, end or go on to its next exchange: `RST_N` is released and `LINEBUF` is as the
requester has it. -/
structure Poised (who : Requester) (s : State) : Prop where
  recorded : Recorded s
  released : s.pins.rstN = true
  line : lineFor who s

/-- The invariant at a position. -/
theorem Recorded.inv_running {s : State} {who : Requester} {p : Position} (h : Recorded s) (ok : positionOk s.cfg p)
    (level : s.pins.rstN = rstAt p) (line : lineFor who s) : Inv { s with seq := .running who p } := by
  have moved : Recorded { s with seq := .running who p } := ⟨h.cfg_wf, h.pins_replay, h.sent_ok, h.opened, h.banner_once⟩
  refine moved.inv ((seqOk_running rfl).2 ⟨ok, level⟩) ((lineOk_running rfl).2 ?_)
  cases who <;> exact line

/-- The invariant when a response is due. -/
theorem Recorded.inv_responding {s : State} {text : List Byte} (texts : List (List Byte)) (h : Recorded s)
    (released : s.pins.rstN = true) (line : lineOf s.trace = []) (head : text.head? ≠ banner.head?) :
    Inv { s with seq := .responding text, texts := texts } :=
  have moved : Recorded { s with seq := .responding text, texts := texts } :=
    ⟨h.cfg_wf, h.pins_replay, h.sent_ok, h.opened, h.banner_once⟩
  moved.inv ⟨released, head⟩ line

/-- Formatting a response uses up open texts only. -/
theorem afterText_eq (s : State) (v : Verb) : s.afterText v = { s with texts := (s.afterText v).texts } := by
  cases v with
  | writeReg reg value =>
    simp only [State.afterText]
    split <;> rfl
  | _ => rfl

theorem Poised.complete {who : Requester} {s : State} (h : Poised who s) (r : Result) : Inv (s.complete who r) := by
  obtain ⟨recorded, released, line⟩ := h
  cases who with
  | direct =>
    have delivered : Recorded (s.deliver r) :=
      ⟨recorded.cfg_wf, recorded.pins_replay, recorded.sent_ok, recorded.opened, recorded.banner_once⟩
    exact delivered.inv released line
  | verb v =>
    simp only [State.complete]
    rw [afterText_eq]
    exact recorded.inv_responding _ released line (responseText_head s v r)

theorem Poised.goTo {who : Requester} {s : State} {op : Operation} (h : Poised who s) (still : lineScript op = [])
    (k : Nat) (phase : Phase) (reply : Word) (coll : List Byte) : Inv (s.goTo who op k phase reply coll) := by
  cases word : outgoingAt s.cfg op k phase with
  | none =>
    rw [goTo_none word]
    exact h.complete _
  | some w =>
    rw [goTo_some word]
    refine h.recorded.inv_running ((positionOk_still (by exact still)).2 ⟨Nat.zero_lt_succ 6, Nat.le_refl 16, word⟩) ?_ h.line
    rw [rstAt_still (by exact still), h.released]

theorem Poised.begin {who : Requester} {s : State} (h : Poised who s) (op : Operation) : Inv (s.begin who op) := by
  simp only [State.begin]
  split
  · rename_i a rest moves
    refine h.recorded.inv_running ((positionOk_line (by simp [atExchange, moves])).2 ?_) h.released h.line
    simp [atExchange, moves]
  · rename_i still
    exact h.goTo still _ _ _ _

/-! ### Ticks -/

theorem Moved.inv {s t : State} {who : Requester} {p : Position} {a : Action} (h : Moved s who p a t)
    (before : Recorded s) (level : s.pins.rstN = rstAt p) (line : lineFor who s) : Inv t := by
  have recorded := before.perform a
  have after : (s.perform a).pins.rstN = rstAfter (rstAt p) [a] := by rw [perform_rstN, level]
  have poised (released : rstAfter (rstAt p) [a] = true) : Poised who (s.perform a) :=
    ⟨recorded, after.trans released, lineFor_perform line a⟩
  cases h with
  | within q ok qLevel => exact recorded.inv_running (by simpa using ok) (after.trans qLevel) (lineFor_perform line a)
  | ended r released => exact (poised released).complete r
  | nextExchange k phase reply coll still released => exact (poised released).goTo still _ _ _ _

theorem inv_tick {s : State} (h : Inv s) : Inv s.tick := by
  cases seq : s.seq with
  | idle => simpa only [State.tick, seq] using h
  | responding text =>
    have recorded := recorded_of_inv h (opened_of_busy h (by simp [seq]))
    obtain ⟨released, head⟩ : s.pins.rstN = true ∧ text.head? ≠ banner.head? := by simpa only [seqOk, seq] using h.seq_ok
    have line : lineOf s.trace = [] := by simpa only [lineOk, seq] using h.line_ok
    simp only [State.tick, seq]
    exact (recorded.respond head).inv released (by simp [lineOk, lineAfter, line])
  | running who p =>
    have recorded := recorded_of_inv h (opened_of_busy h (by simp [seq]))
    obtain ⟨ok, level⟩ := (seqOk_running seq).1 h.seq_ok
    obtain ⟨a, moved⟩ := tick_moved seq ok
    exact moved.inv recorded level ((lineOk_running seq).1 h.line_ok)

/-! ### Starting a request -/

/-- A request of the direct interface is an operation of its own (R232). -/
theorem decodeFrame_direct {cfg : Config} {ws rest : List Word} {i : Instr} (h : decodeFrame cfg ws = .ok (i, rest)) :
    ∃ op, planOf i = .operation .direct op := by
  cases ws with
  | nil => cases h
  | cons w more =>
    have operand {make : Word → Instr} (direct : ∀ v, ∃ op, planOf (make v) = .operation .direct op)
        (h : withOperand w make more = .ok (i, rest)) : ∃ op, planOf i = .operation .direct op := by
      cases more with
      | nil => cases h
      | cons v more =>
        cases h
        exact direct v
    simp only [decodeFrame] at h
    split at h
    · cases h; exact ⟨_, rfl⟩
    split at h
    · exact operand (fun v => ⟨_, rfl⟩) h
    split at h
    · exact operand (fun v => ⟨_, rfl⟩) h
    split at h
    · exact operand (fun v => ⟨_, rfl⟩) h
    split at h
    · cases h; exact ⟨_, rfl⟩
    · cases h

theorem decode_request_direct {cfg : Config} {r : Request} {i : Instr} (h : decode cfg r.code = .ok i) :
    ∃ op, planOf i = .operation .direct op := by
  cases r with
  | op o =>
    cases h
    cases o <;> exact ⟨_, rfl⟩
  | frame ws =>
    simp only [decode, Request.code] at h
    cases decoded : decodeFrame cfg ws with
    | error e => simp [decoded, whole] at h
    | ok x =>
      obtain ⟨j, _ | _⟩ := x
      · simp only [decoded, whole, Except.ok.injEq] at h
        exact decodeFrame_direct (h ▸ decoded)
      · simp [decoded, whole] at h

/-- Every line but the empty one names a command that is answered (R109, R211). -/
theorem decodeLine_answered (cfg : Config) (line : List Byte) :
    line = [] ∧ decodeLine cfg line = .cmdEmpty ∨ answered (decodeLine cfg line) = true := by
  simp only [decodeLine]
  split
  · rename_i empty
    exact .inl ⟨empty, rfl⟩
  · refine .inr ?_
    split
    · rfl
    · simp only [decodeVerb]
      repeat' split
      all_goals rfl

/-- Does the plan end in a response line? -/
def Plan.answers : Plan → Bool
  | .nothing => false
  | .operation .direct _ => false
  | .operation (.verb _) _ => true
  | .unknown => true
  | .fault _ => true

theorem answers_planOf (i : Instr) : (planOf i).answers = answered i := by
  cases i with
  | cmdReadReg reg => simp only [planOf]; cases parseHex reg <;> rfl
  | cmdWriteReg reg val => simp only [planOf]; cases parseTwo reg val <;> rfl
  | _ => rfl

/-- A command's plan starts in a state that meets the invariant, once its terminator is in the trace. -/
theorem inv_start_answers {s : State} {p : Plan} (who : p.answers = true) (h : Recorded s)
    (released : s.pins.rstN = true) (line : lineOf s.trace = []) : Inv (p.start s) := by
  cases p with
  | nothing => cases who
  | operation asker op =>
    cases asker with
    | direct => cases who
    | verb v =>
      have poised : Poised (.verb v) s := ⟨h, released, line⟩
      exact poised.begin op
  | unknown => exact h.inv_responding s.texts released line (by decide)
  | fault f => exact h.inv_responding s.texts.tail released line (exceptionText_head _)

/-- Settles O59, by the kinds of step. -/
theorem stepKeepsTheInvariant : Obligations.StepKeepsTheInvariant := by
  unfold Obligations.StepKeepsTheInvariant
  intro s t h next
  have atRest (idle : s.seq = .idle) : s.pins.rstN = true ∧ s.lineBuf = lineOf s.trace := by
    have seq := h.seq_ok
    have line := h.line_ok
    simp only [seqOk, lineOk, idle] at seq line
    exact ⟨seq, line⟩
  cases step_cases next with
  | ticked => exact inv_tick h
  | greeted idle closed =>
    obtain ⟨none, -⟩ := h.quiet closed
    obtain ⟨released, -⟩ := atRest idle
    obtain ⟨d, replayed⟩ := h.pins_replay
    have queue : s.toHost = [] := by simpa [none, sent] using h.sent_ok
    have recorded : Recorded s.sendBanner :=
      ⟨h.cfg_wf, ⟨d, by rw [State.sendBanner_trace, replay_append, ← replayed]; rfl⟩,
        by simp [none, queue, sent, sentBy], rfl, [], by simp [none], by simp⟩
    exact recorded.inv (by simpa [seqOk, idle] using released) (by simp [lineOk, idle, none, lineOf, lineAfter])
  | requested idle opened r rest i queue code =>
    obtain ⟨released, line⟩ := atRest idle
    obtain ⟨cfg, pins, sent, -, banner⟩ := recorded_of_inv h opened
    obtain ⟨op, plan⟩ := decode_request_direct code
    have poised : Poised .direct { s with requests := rest } := ⟨⟨cfg, pins, sent, opened, banner⟩, released, line⟩
    rw [start_eq_plan, plan]
    exact inv_tick (poised.begin op)
  | dispatched idle opened noRequest c rest queue ends =>
    obtain ⟨released, line⟩ := atRest idle
    have recorded : Recorded { s with fromHost := rest, trace := s.trace ++ [.rx c] } :=
      (recorded_of_inv h opened).emits (e := .rx c) rfl rfl rfl rfl (List.append_nil _).symm (by simp)
    have cleared : lineOf (s.trace ++ [.rx c]) = [] := by simp [lineAfter, ends]
    rcases decodeLine_answered s.cfg s.lineBuf with ⟨empty, command⟩ | who
    · rw [command]
      exact recorded.inv (by simpa only [seqOk, idle] using released) (by simp only [lineOk, idle, empty, cleared])
    · rw [start_eq_plan]
      exact inv_start_answers ((answers_planOf _).trans who) recorded released cleared
  | received idle opened noRequest c rest queue more =>
    obtain ⟨released, line⟩ := atRest idle
    have recorded : Recorded { s with fromHost := rest, trace := s.trace ++ [.rx c], lineBuf := s.lineBuf ++ [c] } :=
      (recorded_of_inv h opened).emits (e := .rx c) rfl rfl rfl rfl (List.append_nil _).symm (by simp)
    exact recorded.inv (by simpa only [seqOk, idle] using released) (by simp [lineOk, idle, lineAfter, more, line])
  | waited => exact h

end Sys2Proof.Machine
end

section
/-! What of an operand reaches the lines (R60 to R62, R67): the low 16 bits of an outgoing value, the low six of an index, the
low 16 of a read address, and the bytes of whole words. -/

namespace Sys2Proof.Machine

open Sys2Proof.Safety

/-- Instructions that run alike are accepted, or not, alike. -/
theorem exec_congr {i j : Instr} (h : ∀ u, runOf i u = runOf j u) (s : State) : exec i s = exec j s := by
  rw [exec_eq_accept, exec_eq_accept, funext h]

/-! ### The wrap of values and indices -/

/-- Bit 16 is driven low whatever the value, and the bits below it are those of its low 16 (R131, R132). -/
theorem bitScript_mod (outgoing : Nat) {n : Nat} (h : n < 17) :
    bitScript (outgoing % 65536) n = bitScript outgoing n := by
  by_cases top : n = 16
  · simp [bitScript, top]
  · have below : n < 16 := by omega
    have low : (outgoing % 65536).testBit n = outgoing.testBit n :=
      (Nat.testBit_mod_two_pow outgoing 16 n).trans (by simp [below])
    simp only [bitScript, low]

theorem downScript_mod (outgoing : Nat) {n : Nat} (h : n ≤ 17) :
    downScript (outgoing % 65536) n = downScript outgoing n := by
  induction n with
  | zero => rfl
  | succ n ih => rw [downScript, downScript, bitScript_mod outgoing h, ih (by omega)]

/-- An exchange sends its value modulo 65536 (R92). -/
theorem transferWord_mod (outgoing : Nat) (s : State) : transferWord (outgoing % 65536) s = transferWord outgoing s := by
  simp only [transferWord, bitSteps_eq_script, downScript_mod outgoing (Nat.le_refl 17)]

theorem readRegister_mod (index : Nat) (s : State) : readRegister (index % 64) s = readRegister index s := by
  rw [readRegister, readRegister, ← registerOpcode_mod]

theorem writeRegister_mod (index value : Nat) (s : State) :
    writeRegister (index % 64) (value % 65536) s = writeRegister index value s := by
  rw [writeRegister, writeRegister, ← registerOpcode_mod, transferWord_mod]

/-- Settles O31: the opcode word takes six bits of the index, the exchange 16 of the value. -/
theorem indexAndValueWrap : Obligations.IndexAndValueWrap := by
  unfold Obligations.IndexAndValueWrap
  intro s index value
  constructor
  · exact exec_congr (fun u => by simp only [runOf, readRegister_mod]) s
  · exact exec_congr (fun u => by simp only [runOf, writeRegister_mod]) s

/-! ### The address of a memory access -/

/-- The low 16 bits of a step's address come from those of the access's address (R61). -/
theorem stepAddress_low {a b : Addr} (h : a.setWidth 16 = b.setWidth 16) (k : Nat) :
    (stepAddress a k).setWidth 16 = (stepAddress b k).setWidth 16 := by
  rw [stepAddress, stepAddress, BitVec.setWidth_add _ _ (by decide), BitVec.setWidth_add _ _ (by decide), h]

/-- A read step puts the low 16 bits of its address on the line (R62). -/
theorem memReadStep_low {a b : Addr} (h : a.setWidth 16 = b.setWidth 16) (s : State) :
    memReadStep a.toNat s = memReadStep b.toNat s := by
  have low : a.toNat % 65536 = b.toNat % 65536 := by simpa using congrArg BitVec.toNat h
  simp only [memReadStep]
  rw [← transferWord_mod, low, transferWord_mod]

theorem readSteps_low {a b : Addr} (h : a.setWidth 16 = b.setWidth 16) (n k : Nat) (out : List Byte) (s : State) :
    readSteps a n k out s = readSteps b n k out s := by
  induction n generalizing k out s with
  | zero => rfl
  | succ n ih => rw [readSteps, readSteps, memReadStep_low (stepAddress_low h k), ih]

theorem readMemory_low {a b : Addr} (h : a.setWidth 16 = b.setWidth 16) (length : Nat) (s : State) :
    readMemory a length s = readMemory b length s :=
  readSteps_low h _ _ _ s

/-- No write uses its address (R193). -/
theorem writeMemory_address (a b : Addr) (data : List Byte) (s : State) : writeMemory a data s = writeMemory b data s :=
  rfl

/-- Settles O32: 16 bits of a read's step address reach the line, and none of a write's address. -/
theorem highAddressBitsAreNotSent : Obligations.HighAddressBitsAreNotSent := by
  unfold Obligations.HighAddressBitsAreNotSent
  intro s a b length data
  constructor
  · exact fun low => exec_congr (fun u => by simp only [runOf, readMemory_low low]) s
  · exact exec_congr (fun u => by simp only [runOf, writeMemory_address a b]) s

/-! ### The odd last byte -/

/-- A read makes one step for each whole word (R67, R187). -/
theorem readMemory_odd (a : Addr) (n : Nat) (s : State) : readMemory a (2 * n + 1) s = readMemory a (2 * n) s := by
  have steps : (2 * n + 1) / 2 = 2 * n / 2 := by omega
  rw [readMemory, readMemory, steps]

/-- The byte after whole words is not sent (R67, R194). -/
theorem writeSteps_odd {data : List Byte} (even : data.length % 2 = 0) (last : Byte) (s : State) :
    writeSteps (data ++ [last]) s = writeSteps data s := by
  induction data using List.twoStepInduction generalizing s with
  | nil => rfl
  | singleton b => simp at even
  | cons_cons high low rest ih =>
    have evenRest : rest.length % 2 = 0 := by simpa [Nat.add_assoc] using even
    exact ih evenRest _

theorem exec_readMemory_odd (a : Addr) (n : Nat) (s : State) :
    exec (.readMemory a (2 * n + 1)) s = exec (.readMemory a (2 * n)) s :=
  exec_congr (fun u => by simp only [runOf, readMemory_odd]) s

theorem exec_writeMemory_odd (a : Addr) {data : List Byte} (even : data.length % 2 = 0) (last : Byte) (s : State) :
    exec (.writeMemory a (data ++ [last])) s = exec (.writeMemory a data) s :=
  exec_congr (fun u => by simp only [runOf, writeMemory, writeSteps_odd even]) s

/-- A read of no bytes takes no step (R187). -/
theorem exec_readMemory_zero (a : Addr) {s : State} (idle : s.seq = .idle) :
    exec (.readMemory a 0) s = .next (withResult s (.bytes [])) := by
  rw [exec_eq_accept, accept_idle idle, ← deliver_idle idle]
  rfl

/-- A write of no bytes takes no step (R187). -/
theorem exec_writeMemory_nil (a : Addr) {s : State} (idle : s.seq = .idle) :
    exec (.writeMemory a []) s = .next (withResult s .void) := by
  rw [exec_eq_accept, accept_idle idle, ← deliver_idle idle]
  rfl

/-- Settles O33: the steps of an access are its whole words, and lengths 0 and 1 hold none. -/
theorem oddLastByteIsDropped : Obligations.OddLastByteIsDropped := by
  unfold Obligations.OddLastByteIsDropped
  intro s a n data last
  refine ⟨exec_readMemory_odd a n s, fun even => exec_writeMemory_odd a even last s, fun idle => ⟨?_, ?_, ?_, ?_⟩⟩
  · exact exec_readMemory_zero a idle
  · exact (exec_readMemory_odd a 0 s).trans (exec_readMemory_zero a idle)
  · exact exec_writeMemory_nil a idle
  · exact (exec_writeMemory_odd a (data := []) rfl last s).trans (exec_writeMemory_nil a idle)

end Sys2Proof.Machine
end

section
/-! Opcode words and frames on the link (R93 to R98, R113): the two fields of a register opcode word, the words that can open
a frame, and the frame its words decode back to. -/

namespace Sys2Proof

open Sys2Proof.Machine Sys2Proof.Safety

/-! ### The fields of an opcode word -/

/-- The selector mask keeps bits 15 to 6 (R93). -/
theorem extract_selector (w : Word) : (selector w).extractLsb' 6 10 = w.extractLsb' 6 10 := by
  have mask : ∀ j < 10, (0xFFC0#16 : Word).getLsbD (6 + j) = true := by decide
  ext j hj
  simp [selector, BitVec.getLsbD_and, mask j hj]

/-- The operand field is bits 5 to 0 (R93). -/
theorem extract_operandIndex (w : Word) : w.extractLsb' 0 6 = operandIndex w := by
  ext j hj
  simp [operandIndex]

/-- The operand field of a register opcode word is the index, cut to six bits (R94). -/
theorem operandIndex_registerOpcode (base : Word) (index : Nat) (h : base &&& 0x003F#16 = 0#16) :
    operandIndex (registerOpcode base index) = BitVec.ofNat 6 index := by
  have low := registerOpcode_index base index h
  rw [BitVec.toNat_and, BitVec.toNat_ofNat, show 63 % 2 ^ 16 = 2 ^ 6 - 1 from rfl, Nat.and_two_pow_sub_one_eq_mod] at low
  apply BitVec.eq_of_toNat_eq
  simpa [operandIndex] using low

/-- Settles O5: the selector field by the mask of R113, the operand field by R94; the OR form is the definition. -/
theorem registerOpcodeIsConcatenation : Obligations.RegisterOpcodeIsConcatenation := by
  unfold Obligations.RegisterOpcodeIsConcatenation
  intro base index h
  refine ⟨?_, ?_, rfl⟩
  · rw [← extract_selector, registerOpcode_selector base index h]
  · rw [extract_operandIndex, operandIndex_registerOpcode base index h]

/-! ### The words that open a frame -/

/-- An index below 64 is ORed in as it is (R94). -/
theorem registerOpcode_of_lt (base : Word) {i : Nat} (h : i < 64) : registerOpcode base i = base ||| BitVec.ofNat 16 i := by
  have six := registerOpcode_six base (BitVec.ofNat 6 i)
  have word : (BitVec.ofNat 6 i).setWidth 16 = BitVec.ofNat 16 i := by
    apply BitVec.eq_of_toNat_eq
    simp only [BitVec.toNat_setWidth, BitVec.toNat_ofNat]
    omega
  rwa [BitVec.toNat_ofNat, Nat.mod_eq_of_lt h, word] at six

/-- Any index is ORed in modulo 64 (R60, R94). -/
theorem registerOpcode_wrapped (base : Word) (i : Nat) : registerOpcode base i = base ||| BitVec.ofNat 16 (i % 64) := by
  rw [registerOpcode_mod, registerOpcode_of_lt base (Nat.mod_lt i (by decide))]

/-- What any operation but a bare exchange sends first in a frame (R97). -/
theorem outgoingAt_first {cfg : Config} {op : Operation} {k w : Nat} (other : ∀ v, op ≠ .transferWord v)
    (h : outgoingAt cfg op k .first = some w) :
    (∃ i, w = (registerOpcode cfg.readBase i).toNat ∨ w = (registerOpcode cfg.writeBase i).toNat) ∨
      w = cfg.goOpcode.toNat ∨ w = cfg.armReadOpcode.toNat ∨ w = cfg.armWriteOpcode.toNat := by
  cases op with
  | transferWord v => exact absurd rfl (other v)
  | enterDebugMode | isHalted | stop | reset => cases h
  | readRegister i =>
    cases k <;> cases h
    exact .inl ⟨i, .inl rfl⟩
  | writeRegister i v =>
    cases k <;> cases h
    exact .inl ⟨i, .inr rfl⟩
  | resume =>
    cases k <;> cases h
    exact .inr (.inl rfl)
  | readMemory a n =>
    simp only [outgoingAt, Option.ite_none_right_eq_some, Option.some.injEq] at h
    exact .inr (.inr (.inl h.2.symm))
  | writeMemory a d =>
    simp only [outgoingAt, Option.ite_none_right_eq_some, Option.some.injEq] at h
    exact .inr (.inr (.inr h.2.symm))

/-- Settles O6: an index counts modulo 64, and each of the words is sent by an operation of one frame. -/
theorem firstWordsOfFrames : Obligations.FirstWordsOfFrames := by
  unfold Obligations.FirstWordsOfFrames
  intro cfg w
  constructor
  · rintro ⟨op, k, other, h⟩
    refine (outgoingAt_first other h).imp_left ?_
    rintro ⟨i, word⟩
    rw [registerOpcode_wrapped, registerOpcode_wrapped] at word
    exact ⟨i % 64, Nat.mod_lt i (by decide), word⟩
  · rintro (⟨i, small, rfl | rfl⟩ | rfl | rfl | rfl)
    · exact ⟨.readRegister i, 0, nofun, by rw [← registerOpcode_of_lt _ small]; rfl⟩
    · exact ⟨.writeRegister i 0, 0, nofun, by rw [← registerOpcode_of_lt _ small]; rfl⟩
    · exact ⟨.resume, 0, nofun, rfl⟩
    · exact ⟨.readMemory 0#32 2, 0, nofun, rfl⟩
    · exact ⟨.writeMemory 0#32 [0#8, 0#8], 0, nofun, rfl⟩

/-! ### The words of a frame -/

/-- Settles O1: for each frame the tests before its own fail because the constants are distinct, and its own succeeds; a
register opcode word gives back its base and its index. -/
theorem frameWordsDecodeBack : Obligations.FrameWordsDecodeBack := by
  unfold Obligations.FrameWordsDecodeBack
  intro cfg i ws rest wf distinct h
  obtain ⟨readBase_low, writeBase_low, -⟩ := wf
  obtain ⟨read_write, armRead_read, armRead_write, armWrite_read, armWrite_write, go_read, go_write,
    armRead_armWrite, armRead_go, armWrite_go⟩ := distinct
  cases i with
  | regRead idx =>
    cases h
    simp [decodeFrame, registerOpcode_selector, operandIndex_registerOpcode, readBase_low]
  | regWrite idx value =>
    cases h
    simp [decodeFrame, registerOpcode_selector, operandIndex_registerOpcode, writeBase_low, read_write.symm, withOperand]
  | go =>
    cases h
    simp [decodeFrame, selector, go_read, go_write, armRead_go.symm, armWrite_go.symm]
  | armRead addrWord =>
    cases h
    simp [decodeFrame, selector, armRead_read, armRead_write, withOperand]
  | armWrite dataWord =>
    cases h
    simp [decodeFrame, selector, armWrite_read, armWrite_write, armRead_armWrite.symm, withOperand]
  | _ => cases h

end Sys2Proof
end

section
/-! Request lines (R100 to R103, R109): the tokens of a line, the command they name, and the command a canonical line decodes
back to. -/

namespace Sys2Proof

open Sys2Proof.Machine Sys2Proof.Safety

/-! ### Tokens -/

/-- What the splitter collects as one token: one or more bytes, none of them whitespace (R101). -/
def IsRun (space : Byte → Bool) (t : List Byte) : Prop := t ≠ [] ∧ ∀ b ∈ t, space b = false

/-- A token is a run without a terminator (R100, R101). -/
theorem tokenOk_iff (cfg : Config) (t : List Byte) :
    tokenOk cfg t = true ↔ IsRun (isSpace cfg) t ∧ ∀ b ∈ t, isTerminator b = false := by
  simp [tokenOk, IsRun, forall_and, and_assoc]

/-- A gap at the end of the line ends the token before it. -/
theorem tokensFrom_last_gap (space : Byte → Bool) {cur gap : List Byte} (hc : cur ≠ []) (hg : gap.all space = true) :
    tokensFrom space cur gap = [cur] := by
  by_cases none : gap = []
  · simp [none, tokensFrom, consToken, hc]
  · have ended := tokensFrom_gap_after space gap cur [] none hc hg
    simpa [tokensFrom, consToken] using ended

/-- After a collected run, gaps and runs in turn give the runs. -/
theorem tokensFrom_runs (space : Byte → Bool) {cur trail : List Byte} {more : List (List Byte × List Byte)}
    (hc : cur ≠ []) (ht : trail.all space = true)
    (hm : ∀ x ∈ more, x.1 ≠ [] ∧ x.1.all space = true ∧ IsRun space x.2) :
    tokensFrom space cur ((more.flatMap fun x => x.1 ++ x.2) ++ trail) = cur :: more.map Prod.snd := by
  induction more generalizing cur with
  | nil => exact tokensFrom_last_gap space hc ht
  | cons x more ih =>
    obtain ⟨gap, blank, nonempty, solid⟩ := hm x (by simp)
    have next := ih nonempty fun y hy => hm y (by simp [hy])
    rw [List.flatMap_cons, List.append_assoc, List.append_assoc, tokensFrom_gap_after space _ _ _ gap hc blank,
      tokensFrom_run space _ _ _ solid, List.nil_append, next, List.map_cons]

/-- Settles O7: the leading gap leaves no trace, the first run is collected, and the rest is gaps and runs in turn. -/
theorem tokensAreTheRunsBetweenGaps : Obligations.TokensAreTheRunsBetweenGaps := by
  unfold Obligations.TokensAreTheRunsBetweenGaps
  intro cfg lead trail first more leading trailing ⟨nonempty, solid⟩ runs
  rw [tokens, List.append_assoc, List.append_assoc, tokensFrom_gap _ _ _ leading, tokensFrom_run _ _ _ _ solid,
    List.nil_append]
  exact tokensFrom_runs _ nonempty trailing runs

/-- A line has no token exactly when it holds only whitespace. -/
theorem tokens_eq_nil (cfg : Config) (line : List Byte) : tokens cfg line = [] ↔ ∀ b ∈ line, isSpace cfg b = true := by
  simp [tokens, tokensFrom_eq_nil]

/-! ### The command a verb names -/

theorem decodeVerb_reset {verb : List Byte} (args : List (List Byte)) (h : upper verb = ascii "RESET") :
    decodeVerb verb args = .cmdReset := by
  simp only [decodeVerb, h, if_true]

theorem decodeVerb_stop {verb : List Byte} (args : List (List Byte)) (h : upper verb = ascii "STOP") :
    decodeVerb verb args = .cmdStop := by
  simp +decide only [decodeVerb, h, if_true, if_false]

theorem decodeVerb_go {verb : List Byte} (args : List (List Byte)) (h : upper verb = ascii "GO") :
    decodeVerb verb args = .cmdGo := by
  simp +decide only [decodeVerb, h, if_true, if_false]

theorem decodeVerb_status {verb : List Byte} (args : List (List Byte)) (h : upper verb = ascii "STATUS") :
    decodeVerb verb args = .cmdStatus := by
  simp +decide only [decodeVerb, h, if_true, if_false]

/-- `READ_REG` asks for exactly one argument (R102). -/
theorem decodeVerb_readReg {verb : List Byte} (args : List (List Byte)) (h : upper verb = ascii "READ_REG") :
    (∀ r, args = [r] → decodeVerb verb args = .cmdReadReg r) ∧
      (args.length ≠ 1 → decodeVerb verb args = .cmdUnknown) := by
  simp +decide only [decodeVerb, h, if_true, if_false]
  constructor
  · rintro r rfl
    rfl
  · intro arity
    split
    · exact absurd rfl arity
    · rfl

/-- `WRITE_REG` asks for exactly two arguments (R102). -/
theorem decodeVerb_writeReg {verb : List Byte} (args : List (List Byte)) (h : upper verb = ascii "WRITE_REG") :
    (∀ r v, args = [r, v] → decodeVerb verb args = .cmdWriteReg r v) ∧
      (args.length ≠ 2 → decodeVerb verb args = .cmdUnknown) := by
  simp +decide only [decodeVerb, h, if_true, if_false]
  constructor
  · rintro r v rfl
    rfl
  · intro arity
    split
    · exact absurd rfl arity
    · rfl

theorem decodeVerb_other {verb : List Byte} (args : List (List Byte))
    (h : upper verb ∉ [ascii "RESET", ascii "STOP", ascii "GO", ascii "STATUS", ascii "READ_REG", ascii "WRITE_REG"]) :
    decodeVerb verb args = .cmdUnknown := by
  simp only [List.mem_cons, List.not_mem_nil, or_false, not_or] at h
  obtain ⟨reset, stop, go, status, readReg, writeReg⟩ := h
  simp only [decodeVerb, reset, stop, go, status, readReg, writeReg, if_false]

/-- No verb names the empty request or the blank line. -/
theorem decodeVerb_not_tokenless (verb : List Byte) (args : List (List Byte)) :
    decodeVerb verb args ≠ .cmdEmpty ∧ decodeVerb verb args ≠ .cmdBlank := by
  simp only [decodeVerb]
  repeat' split
  all_goals exact ⟨nofun, nofun⟩

/-- A line with a token is what its verb and arguments name. -/
theorem decodeLine_verb {cfg : Config} {line verb : List Byte} {args : List (List Byte)}
    (h : tokens cfg line = verb :: args) : decodeLine cfg line = decodeVerb verb args := by
  have nonempty : line ≠ [] := by
    rintro rfl
    simp [tokens, tokensFrom, consToken] at h
  simp [decodeLine, nonempty, h]

/-- Settles O8, by the verbs. -/
theorem firstTokenNamesTheCommand : Obligations.FirstTokenNamesTheCommand := by
  unfold Obligations.FirstTokenNamesTheCommand
  intro cfg line verb args h
  rw [decodeLine_verb h]
  exact ⟨decodeVerb_reset args, decodeVerb_stop args, decodeVerb_go args, decodeVerb_status args,
    decodeVerb_readReg args, decodeVerb_writeReg args, decodeVerb_other args⟩

/-- Settles O9: the line of no bytes, the line without a token, and any other line, which names a verb. -/
theorem emptyAndBlankLines : Obligations.EmptyAndBlankLines := by
  unfold Obligations.EmptyAndBlankLines
  intro cfg line
  rw [← tokens_eq_nil]
  by_cases empty : line = []
  · simp [decodeLine, empty]
  · cases h : tokens cfg line with
    | nil => simp [decodeLine, empty, h]
    | cons verb args => simp [decodeLine_verb h, decodeVerb_not_tokenless, empty]

/-! ### Canonical request lines -/

/-- Visible ASCII is whitespace in no configuration (R101). -/
theorem isSpace_visible (cfg : Config) {b : Byte} (h : 0x21 ≤ b.toNat ∧ b.toNat ≤ 0x7E) : isSpace cfg b = false := by
  have notGap : ∀ b : Byte, 0x21 ≤ b.toNat ∧ b.toNat ≤ 0x7E →
      (b == 0x20#8) = false ∧ (b == 0x09#8) = false ∧ isOpenSpace b = false := by decide +kernel
  obtain ⟨space, tab, notOpen⟩ := notGap b h
  simp [isSpace, space, tab, notOpen]

theorem isTerminator_visible {b : Byte} (h : 0x21 ≤ b.toNat ∧ b.toNat ≤ 0x7E) : isTerminator b = false := by
  revert b
  decide +kernel

/-- Visible ASCII text, such as a verb, is a token in every configuration. -/
theorem tokenOk_visible (cfg : Config) {t : List Byte} (h : t ≠ [] ∧ ∀ b ∈ t, 0x21 ≤ b.toNat ∧ b.toNat ≤ 0x7E) :
    tokenOk cfg t = true := by
  obtain ⟨nonempty, visible⟩ := h
  exact (tokenOk_iff cfg t).2
    ⟨⟨nonempty, fun b hb => isSpace_visible cfg (visible b hb)⟩, fun b hb => isTerminator_visible (visible b hb)⟩

theorem intercalate_space (first : List Byte) (more : List (List Byte)) :
    [0x20#8].intercalate (first :: more) = first ++ more.flatMap fun t => 0x20#8 :: t := by
  induction more generalizing first with
  | nil => simp
  | cons t more ih => simp [List.intercalate_cons_cons, ih]

/-- Tokens with single spaces between them are the tokens of the line. -/
theorem tokens_spaced (cfg : Config) {first : List Byte} {more : List (List Byte)}
    (h : ∀ t ∈ first :: more, tokenOk cfg t = true) : tokens cfg ([0x20#8].intercalate (first :: more)) = first :: more := by
  have run (t : List Byte) (ht : t ∈ first :: more) : IsRun (isSpace cfg) t := ((tokenOk_iff cfg t).1 (h t ht)).1
  have gaps : ∀ x ∈ more.map fun t => ([0x20#8], t),
      x.1 ≠ [] ∧ x.1.all (isSpace cfg) = true ∧ IsRun (isSpace cfg) x.2 := by
    simp only [List.mem_map]
    rintro _ ⟨t, ht, rfl⟩
    exact ⟨by simp, by simp [isSpace], run t (by simp [ht])⟩
  have split := tokensAreTheRunsBetweenGaps cfg [] [] first _ rfl rfl (run first (by simp)) gaps
  rw [intercalate_space]
  simpa [List.flatMap_map, List.map_map, Function.comp_def] using split

/-- A line of tokens holds no terminator. -/
theorem intercalate_oneLine {cfg : Config} {first : List Byte} {more : List (List Byte)}
    (h : ∀ t ∈ first :: more, tokenOk cfg t = true) :
    ∀ b ∈ [0x20#8].intercalate (first :: more), isTerminator b = false := by
  have inside (t : List Byte) (ht : t ∈ first :: more) : ∀ b ∈ t, isTerminator b = false :=
    ((tokenOk_iff cfg t).1 (h t ht)).2
  rw [intercalate_space]
  refine append_oneLine (inside first (by simp)) ?_
  simp only [List.mem_flatMap, List.mem_cons]
  rintro b ⟨t, ht, rfl | hb⟩
  · rfl
  · exact inside t (by simp [ht]) b hb

/-- A canonical request line of tokens is one request: the command its verb and arguments name. -/
theorem decodeRequest_requestLine {cfg : Config} {verb : List Byte} {args : List (List Byte)}
    (h : ∀ t ∈ verb :: args, tokenOk cfg t = true) (rest : List Byte) :
    decodeRequest cfg (requestLine (verb :: args) ++ rest) = .ok (decodeVerb verb args, rest) := by
  have request := decodeRequest_line cfg _ rest (intercalate_oneLine h)
  rw [decodeLine_verb (tokens_spaced cfg h)] at request
  rw [requestLine, List.append_assoc]
  exact request

/-- So is a verb alone. -/
theorem decodeRequest_verb (cfg : Config) {verb : List Byte} (h : verb ≠ [] ∧ ∀ b ∈ verb, 0x21 ≤ b.toNat ∧ b.toNat ≤ 0x7E)
    (rest : List Byte) : decodeRequest cfg (requestLine [verb] ++ rest) = .ok (decodeVerb verb [], rest) :=
  decodeRequest_requestLine (by simpa using tokenOk_visible cfg h) rest

/-- Settles O2: a canonical line is its tokens, and the first of them names the command; the empty and the blank line have
none. -/
theorem requestLinesDecodeBack : Obligations.RequestLinesDecodeBack := by
  unfold Obligations.RequestLinesDecodeBack
  intro cfg i bytes rest wf h
  cases i with
  | cmdReset =>
    cases h
    rw [decodeRequest_verb cfg (by decide), decodeVerb_reset [] (by decide)]
  | cmdStop =>
    cases h
    rw [decodeRequest_verb cfg (by decide), decodeVerb_stop [] (by decide)]
  | cmdGo =>
    cases h
    rw [decodeRequest_verb cfg (by decide), decodeVerb_go [] (by decide)]
  | cmdStatus =>
    cases h
    rw [decodeRequest_verb cfg (by decide), decodeVerb_status [] (by decide)]
  | cmdReadReg reg =>
    cases h
    have verb : tokenOk cfg (ascii "READ_REG") = true := tokenOk_visible cfg (by decide)
    have arg : tokenOk cfg reg = true := wf
    rw [decodeRequest_requestLine (by simp [verb, arg]), (decodeVerb_readReg [reg] (by decide)).1 reg rfl]
  | cmdWriteReg reg val =>
    cases h
    have verb : tokenOk cfg (ascii "WRITE_REG") = true := tokenOk_visible cfg (by decide)
    have args : tokenOk cfg reg = true ∧ tokenOk cfg val = true := by simpa [Instr.wf] using wf
    rw [decodeRequest_requestLine (by simp [verb, args]), (decodeVerb_writeReg [reg, val] (by decide)).1 reg val rfl]
  | cmdUnknown =>
    cases h
    rw [decodeRequest_verb cfg (by decide), decodeVerb_other [] (by decide)]
  | cmdEmpty =>
    cases h
    exact decodeRequest_line cfg [] rest (by simp)
  | cmdBlank =>
    cases h
    have blank : decodeLine cfg [0x20#8] = .cmdBlank := (emptyAndBlankLines cfg [0x20#8]).2.2 (by simp [isSpace])
    have request := decodeRequest_line cfg [0x20#8] rest (by simp [isTerminator])
    rwa [blank] at request
  | _ => cases h

end Sys2Proof
end

section
/-! Codes of every kind: decoding is a left inverse of encoding (R94 to R103, R113, R232). -/

namespace Sys2Proof

open Sys2Proof.Machine Sys2Proof.Safety

/-- A direct request names the operation of its own row (R232). -/
theorem toInstr_of_encode {cfg : Config} {i : Instr} {o : Operation} (h : encode cfg i = .op o) : o.toInstr = i := by
  cases i <;> cases h <;> rfl

/-- Settles O3, by the three kinds of code: a frame's words and a request line decode back with nothing left over. -/
theorem decodeEncodeGivesTheInstruction : Obligations.DecodeEncodeGivesTheInstruction := by
  unfold Obligations.DecodeEncodeGivesTheInstruction
  intro cfg i wf distinct instrWf
  cases code : encode cfg i with
  | words ws =>
    have frame := frameWordsDecodeBack cfg i ws [] wf distinct code
    rw [List.append_nil] at frame
    rw [decode, frame, whole]
  | line bytes =>
    have request := requestLinesDecodeBack cfg i bytes [] instrWf code
    rw [List.append_nil] at request
    rw [decode, request, whole]
  | op o => rw [decode, toInstr_of_encode code]

/-- Settles O4: each code is a closed one, and the decoder computes. -/
theorem writtenOutCodesDecode : Obligations.WrittenOutCodesDecode := by
  unfold Obligations.WrittenOutCodesDecode
  exact ⟨by decide, by decide, by decide, by decide, by decide, by decide, by decide⟩

end Sys2Proof
end

section
/-! Hexadecimal text (R104, R107, R262): the number an argument spells, and the four digits of a printed value. -/

namespace Sys2Proof

open Sys2Proof.Machine Sys2Proof.Safety

/-- The first digit of a text is its most significant one. -/
theorem hexNumber_cons (b : Byte) (t : List Byte) :
    hexNumber (b :: t) = 16 ^ t.length * (hexDigitOf b).getD 0 + hexNumber t := by
  simp [hexNumber, Nat.ofDigits_append, Nat.add_comm]

/-- Digits are read onto the value read so far. -/
theorem hexFrom_digits {t : List Byte} (h : ∀ b ∈ t, (hexDigitOf b).isSome) (n : Nat) :
    hexFrom n t = .ok (16 ^ t.length * n + hexNumber t) := by
  induction t generalizing n with
  | nil => simp [hexFrom, hexNumber]
  | cons b t ih =>
    obtain ⟨d, digit⟩ := Option.isSome_iff_exists.1 (h b (by simp))
    simp only [hexFrom, hexDigitValue_eq, digit, hexNumber_cons, Option.getD_some, List.length_cons]
    rw [ih fun c hc => h c (by simp [hc])]
    congr 1
    ring

/-- A byte that is no digit raises, wherever it stands. -/
theorem hexFrom_bad {t : List Byte} (h : ¬ ∀ b ∈ t, (hexDigitOf b).isSome) (n : Nat) :
    hexFrom n t = .error .nonHexArgument := by
  induction t generalizing n with
  | nil => exact absurd (by simp) h
  | cons b t ih =>
    cases digit : hexDigitOf b with
    | none => simp [hexFrom, hexDigitValue_eq, digit]
    | some d =>
      have later : ¬ ∀ c ∈ t, (hexDigitOf c).isSome := fun rest => h (List.forall_mem_cons.2 ⟨by simp [digit], rest⟩)
      simpa [hexFrom, hexDigitValue_eq, digit] using ih later _

theorem parseHex_hexText {t : List Byte} (h : isHexText t) : parseHex t = .ok (hexNumber t) := by
  obtain ⟨nonempty, digits⟩ := h
  simpa [parseHex, nonempty] using hexFrom_digits digits 0

theorem parseHex_not_hexText {t : List Byte} (h : ¬ isHexText t) : parseHex t = .error .nonHexArgument := by
  by_cases empty : t = []
  · simp [parseHex, empty]
  · simpa [parseHex, empty] using hexFrom_bad (fun digits => h ⟨empty, digits⟩) 0

/-- Settles O10: digits are read in base 16, most significant first, and any other byte raises. -/
theorem hexArgumentsAreHexNumbers : Obligations.HexArgumentsAreHexNumbers := by
  unfold Obligations.HexArgumentsAreHexNumbers
  exact fun t => ⟨parseHex_hexText, parseHex_not_hexText⟩

/-- The four digits of a printed value spell it. -/
theorem hexNumber_hex4 (v : Word) : hexNumber (hex4 v) = v.toNat := by
  have digit (n : Nat) : hexDigitOf (hexDigit (n % 16)) = some (n % 16) :=
    (hexDigit_spec _ (Nat.mod_lt n (by decide))).1
  have last : hexNumber [] = 0 := rfl
  have bound := v.isLt
  simp only [hex4, hexNumber_cons, digit, last, Option.getD_some, List.length_cons, List.length_nil]
  omega

/-- Settles O11: each digit is that of a value below 16. -/
theorem printedValueIsFourUpperCaseDigits : Obligations.PrintedValueIsFourUpperCaseDigits := by
  unfold Obligations.PrintedValueIsFourUpperCaseDigits
  intro v
  have upperCase (n : Nat) : hexDigit (n % 16) ∈ ascii "0123456789ABCDEF" :=
    (hexDigit_spec _ (Nat.mod_lt n (by decide))).2
  refine ⟨rfl, ?_, hexNumber_hex4 v⟩
  simp only [hex4, List.forall_mem_cons, upperCase, true_and]
  exact List.forall_mem_nil _

end Sys2Proof
end

section
/-! What the encodings do when they run: the frames of R97 alone, the 16 bits an exchange sends (R92), the answers to a line
that names no command (R109) and to a value of more than 16 bits (R105). -/

namespace Sys2Proof.Machine

open Sys2Proof.Safety

/-- Settles O16: an exchange sends its value modulo 65536. -/
theorem onlySixteenBitsAreSent : Obligations.OnlySixteenBitsAreSent := by
  unfold Obligations.OnlySixteenBitsAreSent
  intro s w
  exact exec_congr (fun u => by simp only [runOf, transferWord_mod]) s

/-- An idle machine runs any instruction (R232). -/
theorem exec_idle {s : State} (idle : s.seq = .idle) (i : Instr) : exec i s = .next (runOf i s) := by
  rw [exec_eq_accept, accept_idle idle]

/-! ### Frames alone -/

/-- Exchanges and then a result for the direct interface. -/
theorem exec_delivers {i : Instr} {s : State} {r : Result} {xs : List (Nat × List Level)} (idle : s.seq = .idle)
    (h : runOf i s = (afterExchanges s xs).deliver r) : exec i s = .next (withResult (afterExchanges s xs) r) := by
  rw [exec_idle idle, h, deliver_idle (by simpa using idle)]

theorem exec_regRead (idx : BitVec 6) {s : State} (idle : s.seq = .idle) :
    ∃ bits, Exchanged s [((s.cfg.readBase ||| idx.setWidth 16).toNat, bits)] ∧
      exec (.regRead idx) s =
        .next (withResult (afterExchanges s [((s.cfg.readBase ||| idx.setWidth 16).toNat, bits)])
          (.word (replyWord bits))) := by
  obtain ⟨bits, len, sup, h⟩ := readRegister_spec idx.toNat s
  rw [registerOpcode_six] at h
  exact ⟨bits, exchanged_cons len sup (exchanged_nil _), exec_delivers idle (by rw [runOf, h]; rfl)⟩

theorem exec_regWrite (idx : BitVec 6) (value : Word) {s : State} (idle : s.seq = .idle) :
    ∃ a b, Exchanged s [((s.cfg.writeBase ||| idx.setWidth 16).toNat, a), (value.toNat, b)] ∧
      exec (.regWrite idx value) s =
        .next (withResult
          (afterExchanges s [((s.cfg.writeBase ||| idx.setWidth 16).toNat, a), (value.toNat, b)]) .void) := by
  obtain ⟨a, b, taken, h⟩ := writeRegister_spec idx.toNat value.toNat s
  rw [registerOpcode_six] at taken h
  exact ⟨a, b, taken, exec_delivers idle (by rw [runOf, h])⟩

theorem exec_armRead (addrWord : Word) {s : State} (idle : s.seq = .idle) :
    ∃ a b, Exchanged s [(s.cfg.armReadOpcode.toNat, a), (addrWord.toNat, b)] ∧
      exec (.armRead addrWord) s =
        .next (withResult (afterExchanges s [(s.cfg.armReadOpcode.toNat, a), (addrWord.toNat, b)])
          (.bytes [highByte (replyWord b), lowByte (replyWord b)])) := by
  obtain ⟨a, b, taken, h⟩ := memReadStep_spec addrWord.toNat s
  exact ⟨a, b, taken, exec_delivers idle (by rw [runOf, h])⟩

theorem exec_armWrite (dataWord : Word) {s : State} (idle : s.seq = .idle) :
    ∃ a b, Exchanged s [(s.cfg.armWriteOpcode.toNat, a), (dataWord.toNat, b)] ∧
      exec (.armWrite dataWord) s =
        .next (withResult (afterExchanges s [(s.cfg.armWriteOpcode.toNat, a), (dataWord.toNat, b)]) .void) := by
  obtain ⟨a, b, taken, h⟩ := memWriteStep_spec dataWord.toNat s
  exact ⟨a, b, taken, exec_delivers idle (by rw [runOf, h])⟩

/-- Settles O30, frame by frame. -/
theorem framesRunAlone : Obligations.FramesRunAlone := by
  unfold Obligations.FramesRunAlone
  intro s idx w idle
  exact ⟨exec_regRead idx idle, exec_regWrite idx w idle, exec_armRead w idle, exec_armWrite w idle⟩

/-! ### Responses -/

/-- Settles O43: both commands are answered by the one response. -/
theorem unknownAndBlankLinesAreAnswered : Obligations.UnknownAndBlankLinesAreAnswered := by
  unfold Obligations.UnknownAndBlankLinesAreAnswered
  intro s i idle h
  rcases h with rfl | rfl
  · rw [exec_idle idle, runOf, respond_idle idle, unknownText]
  · rw [exec_idle idle, runOf, respond_idle idle, unknownText]

/-- A verb's response from an idle machine, with the open text it uses up. -/
theorem answerVerb_idle {s : State} (idle : s.seq = .idle) (v : Verb) (r : Result) :
    s.answerVerb v r = { afterResponse s (s.responseText v r) with texts := (s.afterText v).texts } := by
  have still : (s.afterText v).seq = .idle := by rw [afterText_eq]; exact idle
  rw [State.answerVerb, respond_idle still, afterText_eq]
  rfl

/-- The response to a value above 0xFFFF prints the next open text (R105). -/
theorem answerVerb_wide {s : State} {value : Nat} (idle : s.seq = .idle) (wide : 0xFFFF < value) (reg : List Byte)
    (r : Result) :
    s.answerVerb (.writeReg reg value) r =
      { afterResponse s (ascii "REG " ++ reg ++ ascii " <- 0x" ++ s.wideValueText) with texts := s.texts.tail } := by
  have above : ¬ value ≤ 0xFFFF := by omega
  simp [answerVerb_idle idle, State.afterText, State.responseText, State.valueText, above]

theorem wideValueText_printable (s : State) : ∀ c ∈ s.wideValueText, isPrintable c = true := by
  simp [State.wideValueText]

theorem parseTwo_hexText {reg val : List Byte} (hr : isHexText reg) (hv : isHexText val) :
    parseTwo reg val = .ok (hexNumber reg, hexNumber val) := by
  simp only [parseTwo, parseHex_hexText hr, parseHex_hexText hv]

/-- A register write sends its value modulo 65536 (R92, R185). -/
theorem writeRegister_value_mod (index value : Nat) (s : State) :
    writeRegister index (value % 65536) s = writeRegister index value s := by
  simp only [writeRegister, transferWord_mod]

/-- Settles O41: the write is that of the value's low 16 bits, and the response prints an open text. -/
theorem wideValueIsSentTruncated : Obligations.WideValueIsSentTruncated := by
  unfold Obligations.WideValueIsSentTruncated
  intro s reg val idle regHex valHex wide
  obtain ⟨a, b, taken, written⟩ := writeRegister_spec (hexNumber reg) (hexNumber val % 65536) s
  rw [writeRegister_value_mod] at written
  have still : (writeRegister (hexNumber reg) (hexNumber val) s).seq = .idle := by simpa [written] using idle
  have texts : (writeRegister (hexNumber reg) (hexNumber val) s).texts = s.texts := by simp [written]
  refine ⟨a, b, (writeRegister (hexNumber reg) (hexNumber val) s).wideValueText, taken, wideValueText_printable _, ?_⟩
  rw [exec_idle idle, runOf, parseTwo_hexText regHex valHex]
  simp only [answerVerb_wide still wide, texts]
  rw [written]
  rfl

end Sys2Proof.Machine
end

section
/-! A request line on the byte channel (R100, R210, R215): one step for each byte, then one for each event of its command. -/

namespace Sys2Proof.Machine

open Sys2Proof.Safety

/-- An idle port that has sent its banner and has no direct request takes the next byte: a terminator dispatches the
line (R210, R215). -/
theorem step_terminator {s : State} {c : Byte} {rest : List Byte} (idle : s.seq = .idle) (opened : s.bannerSent = true)
    (noRequest : s.requests = []) (queue : s.fromHost = c :: rest) (ends : isTerminator c = true) :
    step s =
      .next (({ s with fromHost := rest, trace := s.trace ++ [.rx c] } : State).start (decodeLine s.cfg s.lineBuf)) := by
  simp [step, portStep, idleStep, receive, State.emit, idle, opened, noRequest, queue, ends]

/-- Any other byte is appended to the line (R227). -/
theorem step_byte {s : State} {c : Byte} {rest : List Byte} (idle : s.seq = .idle) (opened : s.bannerSent = true)
    (noRequest : s.requests = []) (queue : s.fromHost = c :: rest) (more : isTerminator c = false) :
    step s = .next { s with fromHost := rest, trace := s.trace ++ [.rx c], lineBuf := s.lineBuf ++ [c] } := by
  simp [step, portStep, idleStep, receive, State.emit, idle, opened, noRequest, queue, more]

/-- Bytes without a terminator are taken one step each. -/
theorem run_bytes {s : State} {line rest : List Byte} (idle : s.seq = .idle) (opened : s.bannerSent = true)
    (noRequest : s.requests = []) (more : ∀ b ∈ line, isTerminator b = false) (queue : s.fromHost = line ++ rest)
    (k : Nat) :
    Host.Core.run core (line.length + k) s =
      Host.Core.run core k
        ({ s with
            fromHost := rest, lineBuf := s.lineBuf ++ line, trace := s.trace ++ line.map Event.rx } : State) := by
  induction line generalizing s with
  | nil => simp [← show s.fromHost = rest from queue]
  | cons b line ih =>
    have first := step_byte idle opened noRequest queue (more b (by simp))
    have others := ih (s := { s with
        fromHost := line ++ rest, trace := s.trace ++ [.rx b], lineBuf := s.lineBuf ++ [b] })
      idle opened noRequest (fun x hx => more x (by simp [hx])) rfl
    rw [List.length_cons, Nat.add_right_comm]
    refine (run_next _ first).trans (others.trans ?_)
    simp

/-- An instruction runs in as many steps as it adds events to the trace (R33). -/
theorem exec_run {i : Instr} {s t : State} (h : exec i s = .next t) :
    ∃ m, t.trace.length = s.trace.length + m ∧ Host.Core.run core m (s.start i) = .next t := by
  obtain ⟨-, rfl⟩ := exec_eq_plan h
  obtain ⟨m, ticks⟩ := (planOf i).ticks s
  rw [← start_eq_plan] at ticks
  exact ⟨m, by simpa using ticks.length, ticks.run⟩

/-- Settles O49: the bytes of the line, its terminator, then the events of its command. -/
theorem wholeLineRunsItsCommand : Obligations.WholeLineRunsItsCommand := by
  unfold Obligations.WholeLineRunsItsCommand
  intro s line rest c idle opened noRequest empty more ends queue u
  have read (k : Nat) : Host.Core.run core (line.length + 1 + k) s =
      Host.Core.run core k (u.start (decodeLine s.cfg line)) := by
    rw [Nat.add_assoc, Nat.add_comm 1 k]
    refine (run_bytes idle opened noRequest more queue (k + 1)).trans (run_next k ?_)
    simpa [u, empty] using step_terminator
      (s := { s with fromHost := c :: rest, lineBuf := s.lineBuf ++ line, trace := s.trace ++ line.map Event.rx })
      idle opened noRequest rfl ends
  refine ⟨read 0, fun t h => ?_⟩
  obtain ⟨m, events, run⟩ := exec_run h
  have steps : t.trace.length - s.trace.length = line.length + 1 + m := by
    simp only [events, u, List.length_append, List.length_map, List.length_cons, List.length_nil]
    omega
  rw [steps, read m, run]

end Sys2Proof.Machine
end

section
/-! One exchange (R131 to R138) as a direct request: the state it ends in, its result bit by bit, its events counted and its
clock edges. -/

namespace Sys2Proof.Machine

open Sys2Proof.Safety

/-! ### The state after an exchange -/

/-- Settles O12: the exchange of `transferWord_spec`, its reply word delivered. -/
theorem transferWordRuns : Obligations.TransferWordRuns := by
  unfold Obligations.TransferWordRuns
  intro s w idle
  obtain ⟨bits, len, sup, h⟩ := transferWord_spec w s
  have one : runOf (.transferWord w) s = (afterExchanges s [(w, bits)]).deliver (.word (replyWord bits)) := by
    rw [runOf, h]
    rfl
  exact ⟨bits, len, sup, exec_delivers idle one⟩

/-- As many levels as there are answers for are the answers (R27). -/
theorem supplied_eq {s : State} {bits taken more : List Level} (sup : Supplied s taken)
    (len : taken.length = bits.length) (answers : s.answers = bits ++ more) : taken = bits := by
  rw [Supplied, len, answers, List.take_left] at sup
  exact (sup.eq_of_length len.symm).symm

/-- With its 17 answers supplied an exchange samples just these (R27, R131). -/
theorem exec_transferWord_answers {s : State} {bits more : List Level} (w : Nat) (idle : s.seq = .idle)
    (len : bits.length = 17) (answers : s.answers = bits ++ more) :
    exec (.transferWord w) s = .next (withResult (afterExchange s w bits) (.word (replyWord bits))) := by
  obtain ⟨taken, takenLen, sup, h⟩ := transferWordRuns s w idle
  rwa [supplied_eq sup (takenLen.trans len.symm) answers] at h

/-- A next state of an exchange has its events in the trace and the clock high. -/
theorem exec_transferWord_events {s t : State} {w : Nat} (h : exec (.transferWord w) s = .next t) :
    ∃ bits, t.trace = s.trace ++ exchangeEvents w bits ∧ t.pins.clk = true := by
  obtain ⟨idle, -⟩ := exec_eq_plan h
  obtain ⟨bits, -, -, run⟩ := transferWordRuns s w idle
  cases h.symm.trans run
  exact ⟨bits, rfl, rfl⟩

/-! ### The result -/

/-- Bit 0 of `ACC` is the bit shifted in last, and every other bit has moved up by one (R28). -/
theorem getLsbD_shiftIn_zero (acc : Acc) (b : Level) : (shiftIn acc b).getLsbD 0 = b := by
  simp [shiftIn]

theorem getLsbD_shiftIn_succ (acc : Acc) (b : Level) {i : Nat} (h : i + 1 < 17) :
    (shiftIn acc b).getLsbD (i + 1) = acc.getLsbD i := by
  simp [shiftIn, h, BitVec.getLsbD_eq_getElem (show i < 17 by omega)]

/-- `ACC` holds the bits shifted in, the last one lowest (R28, R131). -/
theorem getLsbD_foldl_shiftIn (bits : List Level) {i : Nat} (h : i < 17) :
    (bits.foldl shiftIn 0#17).getLsbD i = bits.reverse.getD i false := by
  induction bits using List.reverseRecOn generalizing i with
  | nil => simp
  | append_singleton bits b ih =>
    rw [List.foldl_append, List.reverse_append]
    cases i with
    | zero => exact getLsbD_shiftIn_zero _ b
    | succ i => exact (getLsbD_shiftIn_succ _ b h).trans (ih (by omega))

/-- Bit `15 - j` of the reply is the sample `s(j+1)` (R138). -/
theorem getLsbD_replyWord {bits : List Level} (len : bits.length = 17) {j : Nat} (h : j < 16) :
    (replyWord bits).getLsbD (15 - j) = bits.getD (j + 1) false := by
  have low : 15 - j < 16 := by omega
  have place : bits.length - 1 - (15 - j) = j + 1 := by omega
  rw [← payload_foldl bits len, payload, BitVec.getLsbD_setWidth, getLsbD_foldl_shiftIn bits (by omega),
    List.getD_reverse _ (by omega), place]
  simp [low]

/-- The level sampled first is not in the reply (R137). -/
theorem replyWord_first (b c : Level) (rest : List Level) : replyWord (b :: rest) = replyWord (c :: rest) := by
  simp only [replyWord, List.getD_cons_succ]

/-- Settles O13: the supplied levels are those sampled, and `ACC` holds them in order. -/
theorem transferWordReturnsTheSamples : Obligations.TransferWordReturnsTheSamples := by
  unfold Obligations.TransferWordReturnsTheSamples
  intro s w bits more idle len answers
  refine ⟨_, exec_transferWord_answers w idle len answers, rfl, ?_, fun j h => getLsbD_replyWord len h, fun b => ?_⟩
  · change s.answers.drop 17 = more
    rw [answers, ← len, List.drop_left]
  · cases bits with
    | nil => cases len
    | cons c rest => exact replyWord_first b c rest

/-- Settles O17: both runs sample what is supplied, and their replies are the same word. -/
theorem statusBitChangesNothing : Obligations.StatusBitChangesNothing := by
  unfold Obligations.StatusBitChangesNothing
  intro s w b c more idle enough
  have len (d : Level) : (d :: more.take 16).length = 17 := by simp [enough]
  have answers (d : Level) : d :: more = (d :: more.take 16) ++ more.drop 16 := by simp
  have run (d : Level) := exec_transferWord_answers (s := { s with answers := d :: more }) w idle (len d) (answers d)
  refine ⟨_, _, run b, run c, rfl, rfl, ?_⟩
  rw [replyWord_first b c]
  rfl

/-! ### Counts -/

theorem length_exchangeEvents (w : Nat) (bits : List Level) : (exchangeEvents w bits).length = 119 := by
  simp [exchangeEvents, bitStepEvents]

/-- Is the event one on the clock line, driven at either level? -/
abbrev drivesClk (e : Event) : Bool := e == .drive .clk false || e == .drive .clk true

/-- The clock drives of a bit step are one pulse, low then high (R132). -/
theorem bitStep_clock (w p : Nat) (b : Level) :
    (bitStepEvents w p b).filter drivesClk = [.drive .clk false, .drive .clk true] := rfl

theorem bitStep_waits (w p : Nat) (b : Level) : (bitStepEvents w p b).countP (· == .wait .qBit) = 3 := rfl

/-- The clock drives of an exchange are 17 pulses (R133). -/
theorem clock_exchangeEvents (w : Nat) (bits : List Level) :
    (exchangeEvents w bits).filter drivesClk =
      (List.replicate 17 [Event.drive .clk false, Event.drive .clk true]).flatten := by
  simp only [exchangeEvents, List.filter_flatMap, bitStep_clock]
  rfl

/-- Settles O14: each count is the sum over the 17 bit steps. -/
theorem exchangeEventCounts : Obligations.ExchangeEventCounts := by
  unfold Obligations.ExchangeEventCounts
  intro s t w h
  obtain ⟨bits, trace, clk⟩ := exec_transferWord_events h
  refine ⟨_, trace, length_exchangeEvents w bits, ?_, clock_exchangeEvents w bits, ?_, ?_, clk⟩
  · rw [← List.countP_eq_length_filter]
    exact countP_exchangeEvents bitStep_drivesDout w bits
  · rw [← List.countP_eq_length_filter]
    exact countP_exchangeEvents bitStep_samplesDin w bits
  · exact countP_exchangeEvents bitStep_waits w bits

/-! ### Clock edges -/

/-- A bit step falls where it is entered with the clock high, and leaves the clock high (R132). -/
theorem fallingEdges_bitStep (level : Level) (w p : Nat) (b : Level) (rest : List Event) :
    fallingEdges level (bitStepEvents w p b ++ rest) = (if level then 1 else 0) + fallingEdges true rest := by
  cases level <;> simp [bitStepEvents, fallingEdges]

/-- A bit step rises once, whatever the clock was (R132). -/
theorem risingEdges_bitStep (level : Level) (w p : Nat) (b : Level) (rest : List Event) :
    risingEdges level (bitStepEvents w p b ++ rest) = 1 + risingEdges true rest := by
  simp [bitStepEvents, risingEdges]

/-- Bit steps in a row, entered with the clock high, fall once each. -/
theorem fallingEdges_bitSteps (w : Nat) (bits : List Level) (ns : List Nat) :
    fallingEdges true (ns.flatMap fun n => bitStepEvents w (16 - n) (bits.getD n false)) = ns.length := by
  induction ns with
  | nil => rfl
  | cons n ns ih => rw [List.flatMap_cons, fallingEdges_bitStep, ih, List.length_cons, Nat.add_comm, if_pos rfl]

/-- Bit steps in a row rise once each. -/
theorem risingEdges_bitSteps (level : Level) (w : Nat) (bits : List Level) (ns : List Nat) :
    risingEdges level (ns.flatMap fun n => bitStepEvents w (16 - n) (bits.getD n false)) = ns.length := by
  induction ns generalizing level with
  | nil => rfl
  | cons n ns ih => rw [List.flatMap_cons, risingEdges_bitStep, ih, List.length_cons, Nat.add_comm]

/-- The first bit step of an exchange falls only where the clock was high, the other 16 always (R135). -/
theorem fallingEdges_exchangeEvents (level : Level) (w : Nat) (bits : List Level) :
    fallingEdges level (exchangeEvents w bits) = if level then 17 else 16 := by
  rw [exchangeEvents, List.range_succ_eq_map, List.flatMap_cons, fallingEdges_bitStep, fallingEdges_bitSteps]
  cases level <;> rfl

/-- Settles O15: the edges of 17 bit steps, of which the first may have no fall. -/
theorem exchangeClockEdges : Obligations.ExchangeClockEdges := by
  unfold Obligations.ExchangeClockEdges
  intro s t w h
  obtain ⟨bits, trace, -⟩ := exec_transferWord_events h
  exact ⟨_, trace, length_exchangeEvents w bits, fallingEdges_exchangeEvents _ w bits,
    risingEdges_bitSteps _ w bits (List.range 17)⟩

end Sys2Proof.Machine
end

section
/-! The Mode Controller's operations (R151 to R160) as direct requests, each from its `_spec` lemma. -/

namespace Sys2Proof.Machine

open Sys2Proof.Safety

/-- An instruction that ends idle with a result for the direct interface appends just that result. -/
theorem exec_deliver {i : Instr} {s u : State} {r : Result} (idle : s.seq = .idle) (kept : u.seq = s.seq)
    (h : runOf i s = u.deliver r) : exec i s = .next (withResult u r) := by
  rw [exec_idle idle, h, deliver_idle (kept.trans idle)]

/-- Settles O18: the script of `enterDebugMode_spec`, which returns no value. -/
theorem enterDebugModeRuns : Obligations.EnterDebugModeRuns := by
  unfold Obligations.EnterDebugModeRuns
  intro s idle
  exact exec_deliver idle rfl (congrArg (·.deliver .void) (enterDebugMode_spec s))

/-- Settles O19: the one sample of `isHalted_spec` is the result. -/
theorem isHaltedRuns : Obligations.IsHaltedRuns := by
  unfold Obligations.IsHaltedRuns
  intro s idle
  obtain ⟨f, sup, h⟩ := isHalted_spec s
  exact ⟨f, sup, exec_deliver idle rfl (by rw [runOf, h])⟩

/-- Settles O20: the one sample of `stop_spec` is the result. -/
theorem stopRuns : Obligations.StopRuns := by
  unfold Obligations.StopRuns
  intro s idle
  obtain ⟨f, sup, h⟩ := stop_spec s
  exact ⟨f, sup, exec_deliver idle rfl (by rw [runOf, h])⟩

/-- Settles O21: the pulse of `resetTarget_spec`, which returns no value. -/
theorem resetPulseRuns : Obligations.ResetPulseRuns := by
  unfold Obligations.ResetPulseRuns
  intro s idle
  exact exec_deliver idle rfl (by rw [runOf, resetTarget_spec])

/-- Settles O22: both instructions run `resume`, which is one exchange and drops the reply. -/
theorem resumeRuns : Obligations.ResumeRuns := by
  unfold Obligations.ResumeRuns
  intro s i idle asked
  obtain ⟨bits, len, sup, h⟩ := resume_spec s
  have run : runOf i s = (resume s).deliver .void := by rcases asked with rfl | rfl <;> rfl
  exact ⟨bits, len, sup, exec_deliver idle rfl (by rw [run, h])⟩

end Sys2Proof.Machine
end

section
/-! The Access Layer's operations (R181 to R193) as direct requests, each from its `_spec` lemma. -/

namespace Sys2Proof.Machine

open Sys2Proof.Safety

/-- Settles O26: the one exchange of `readRegister_spec`, its reply word delivered. -/
theorem readRegisterRuns : Obligations.ReadRegisterRuns := by
  unfold Obligations.ReadRegisterRuns
  intro s index idle
  obtain ⟨bits, len, sup, h⟩ := readRegister_spec index s
  exact ⟨bits, len, sup, exec_deliver idle rfl (by rw [runOf, h, registerOpcode])⟩

/-- Settles O27: the two exchanges of `writeRegister_spec`, which returns no value. -/
theorem writeRegisterRuns : Obligations.WriteRegisterRuns := by
  unfold Obligations.WriteRegisterRuns
  intro s index value idle
  obtain ⟨a, b, taken, h⟩ := writeRegister_spec index value s
  exact ⟨a, b, taken, exec_delivers idle (by rw [runOf, h, registerOpcode])⟩

/-- Settles O28: the steps of `readMemory_spec`, the bytes of their replies delivered. -/
theorem readMemoryRuns : Obligations.ReadMemoryRuns := by
  unfold Obligations.ReadMemoryRuns
  intro s address length idle
  obtain ⟨steps, len, taken, h⟩ := readMemory_spec address length s
  exact ⟨steps, len, taken, exec_delivers idle (by rw [runOf, h])⟩

/-- Settles O29: the steps of `writeMemory_spec`, which returns no value. -/
theorem writeMemoryRuns : Obligations.WriteMemoryRuns := by
  unfold Obligations.WriteMemoryRuns
  intro s address data idle
  obtain ⟨steps, len, taken, h⟩ := writeMemory_spec address data s
  exact ⟨steps, len, taken, exec_delivers idle (by rw [runOf, h])⟩

end Sys2Proof.Machine
end

section
/-! The echo target of `95_test_vectors.md` section 4: what it answers to the frames of a register write and a register read,
and the word the probe reads in an answer. -/

namespace Sys2Proof.EchoTarget

open Sys2Proof.Safety

/-! ### Replies -/

@[simp] theorem length_replyLevels (w : Word) : (replyLevels w).length = 17 := by
  simp [replyLevels]

/-- The probe reads the word the target replied (R138). -/
theorem replyWord_replyLevels (w : Word) : replyWord (replyLevels w) = w := by
  apply BitVec.eq_of_getLsbD_eq
  intro i hi
  have place : 15 - (15 - i) = i := by omega
  have inside : 15 - i < 16 := by omega
  have bit := Machine.getLsbD_replyWord (length_replyLevels w) inside
  rw [place] at bit
  rw [bit, replyLevels, List.getD_cons_succ]
  simp [place, inside]

/-! ### The exchanges of the register frames -/

section
variable {cfg : Config} {e : Target}

/-- A register write's opcode word makes the target wait for the register's data. -/
theorem exchange_writeOpcode (i : Nat) (wf : cfg.wf) (apart : cfg.readBase ≠ cfg.writeBase) (halted : e.halted = true)
    (free : e.pend = .none) :
    exchange cfg e (registerOpcode cfg.writeBase i) = (0#16, { e with pend := .regData (i % 64) }) := by
  obtain ⟨-, low, -⟩ := wf
  have base : registerOpcode cfg.writeBase i &&& 0xFFC0#16 = cfg.writeBase := registerOpcode_selector _ i low
  simp only [exchange, halted, free, base, apart.symm, registerOpcode_index _ i low, if_true, if_false, reduceCtorEq]

/-- The word after it is the register's new value. -/
theorem exchange_regData {i : Nat} (v : Word) (halted : e.halted = true) (waiting : e.pend = .regData i) :
    exchange cfg e v = (0#16, { e with regs := e.regs.set i v, pend := .none }) := by
  simp only [exchange, halted, waiting, if_false, reduceCtorEq]

/-- A register read's opcode word is answered with the register. -/
theorem exchange_readOpcode (i : Nat) (wf : cfg.wf) (halted : e.halted = true) (free : e.pend = .none) :
    exchange cfg e (registerOpcode cfg.readBase i) = (e.regs.getD (i % 64) 0#16, e) := by
  obtain ⟨low, -⟩ := wf
  have base : registerOpcode cfg.readBase i &&& 0xFFC0#16 = cfg.readBase := registerOpcode_selector _ i low
  simp only [exchange, halted, free, base, registerOpcode_index _ i low, if_true, if_false, reduceCtorEq]

/-- A register write and a read of the same register: the target replies zero twice and then the value written. -/
theorem answers_writeThenRead {i : Nat} (v : Word) (wf : cfg.wf) (apart : cfg.readBase ≠ cfg.writeBase)
    (halted : e.halted = true) (free : e.pend = .none) (present : i % 64 < e.regs.length) :
    answers cfg e [registerOpcode cfg.writeBase i, v, registerOpcode cfg.readBase i] =
      replyLevels 0#16 ++ replyLevels 0#16 ++ replyLevels v := by
  have write := exchange_writeOpcode i wf apart halted free
  have value : exchange cfg { e with pend := .regData (i % 64) } v =
      (0#16, { e with regs := e.regs.set (i % 64) v, pend := .none }) := exchange_regData v halted rfl
  have read := exchange_readOpcode (e := { e with regs := e.regs.set (i % 64) v, pend := .none }) i wf halted rfl
  simp only [answers, write, value, read]
  simp [present]

end

end Sys2Proof.EchoTarget
end

section
/-! A register write and then a read of the same register (R186): each operation with the answers it samples supplied, and both
against the echo target. -/

namespace Sys2Proof.Machine

open Sys2Proof.Safety

/-- Each exchange uses 17 answers (R131). -/
theorem afterExchanges_answers (xs : List (Nat × List Level)) (s : State) :
    (afterExchanges s xs).answers = s.answers.drop (17 * xs.length) := by
  induction xs generalizing s with
  | nil => rfl
  | cons x rest ih =>
    rw [afterExchanges, ih, List.length_cons, Nat.mul_add, Nat.add_comm]
    exact List.drop_drop

/-- A register write leaves the machine idle, with no value delivered and the answers to two exchanges used (R184). -/
theorem exec_writeRegister_answers {s : State} {a b more : List Level} (index value : Nat) (idle : s.seq = .idle)
    (lenA : a.length = 17) (lenB : b.length = 17) (answers : s.answers = a ++ b ++ more) :
    ∃ t : State, exec (.writeRegister index value) s = .next t ∧ t.seq = .idle ∧ t.results = s.results ++ [.void] ∧
      t.answers = more := by
  obtain ⟨x, y, -, run⟩ := writeRegisterRuns s index value idle
  refine ⟨_, run, ?_, ?_, ?_⟩
  · exact (afterExchanges_seq _ s).trans idle
  · exact congrArg (· ++ [.void]) (afterExchanges_results _ s)
  · refine (afterExchanges_answers _ s).trans ?_
    rw [answers]
    exact List.drop_left' (by simp [lenA, lenB])

/-- With its 17 answers supplied a register read returns the word they spell (R181). -/
theorem exec_readRegister_answers {s : State} {bits more : List Level} (index : Nat) (idle : s.seq = .idle)
    (len : bits.length = 17) (answers : s.answers = bits ++ more) :
    ∃ t : State, exec (.readRegister index) s = .next t ∧ t.results = s.results ++ [.word (replyWord bits)] ∧
      t.answers = more := by
  obtain ⟨taken, takenLen, sup, run⟩ := readRegisterRuns s index idle
  cases supplied_eq sup (takenLen.trans len.symm) answers
  refine ⟨_, run, rfl, ?_⟩
  change s.answers.drop 17 = more
  rw [answers]
  exact List.drop_left' len

/-- Settles O34: of the target's three replies the write ignores two, and the third spells the value written. -/
theorem registerRoundTripAgainstTheEchoTarget : Obligations.RegisterRoundTripAgainstTheEchoTarget := by
  unfold Obligations.RegisterRoundTripAgainstTheEchoTarget
  intro s e i v more idle wf apart halted ready regs small answers
  rw [EchoTarget.answers_writeThenRead v wf apart halted ready (by omega), List.append_assoc] at answers
  obtain ⟨t, write, still, wrote, left⟩ := exec_writeRegister_answers i v.toNat idle (EchoTarget.length_replyLevels _)
    (EchoTarget.length_replyLevels _) answers
  obtain ⟨u, read, got, rest⟩ := exec_readRegister_answers i still (EchoTarget.length_replyLevels v) left
  rw [EchoTarget.replyWord_replyLevels, wrote, List.append_assoc] at got
  exact ⟨t, u, write, read, got, rest⟩

end Sys2Proof.Machine
end

section
/-! The verbs of the command port (R216 to R225): each runs its operation's `_spec` lemma and answers with one line, or, where
an argument is no number, answers with the caught fault alone. -/

namespace Sys2Proof.Machine

open Sys2Proof.Safety

/-- A verb whose response prints no open text changes nothing beyond its operation but for that response. -/
theorem exec_answers {i : Instr} {s u : State} {v : Verb} {r : Result} (idle : s.seq = .idle) (kept : u.seq = s.seq)
    (run : runOf i s = u.answerVerb v r) (fixed : u.afterText v = u) :
    exec i s = .next (afterResponse u (u.responseText v r)) := by
  rw [exec_idle idle, run, answerVerb_idle (kept.trans idle), fixed]
  rfl

theorem responseText_stop (s : State) (f : Bool) :
    s.responseText .stop (.flag f) = if f then ascii "OK: CPU halted in BDM" else ascii "ERROR: Failed to halt CPU" := by
  cases f <;> rfl

theorem responseText_status (s : State) (f : Bool) :
    s.responseText .status (.flag f) = if f then ascii "HALTED" else ascii "RUNNING" := by
  cases f <;> rfl

/-- A value of at most 16 bits is printed in four digits (R107). -/
theorem responseText_writeReg (s : State) (reg : List Byte) {value : Nat} (narrow : value ≤ 0xFFFF) (r : Result) :
    s.responseText (.writeReg reg value) r = ascii "REG " ++ reg ++ ascii " <- 0x" ++ hex4 (BitVec.ofNat 16 value) := by
  simp only [State.responseText, State.valueText, if_pos narrow]

/-- Settles O35: the pulse of `resetTarget_spec`, then the response. -/
theorem resetVerbRuns : Obligations.ResetVerbRuns := by
  unfold Obligations.ResetVerbRuns
  intro s idle
  exact exec_answers (v := .reset) (r := .void) idle rfl (by rw [runOf, resetTarget_spec]) rfl

/-- Settles O36: the one sample of `stop_spec` chooses the response. -/
theorem stopVerbRuns : Obligations.StopVerbRuns := by
  unfold Obligations.StopVerbRuns
  intro s idle
  obtain ⟨f, sup, h⟩ := stop_spec s
  refine ⟨f, sup, ?_⟩
  rw [← responseText_stop (afterStop s f)]
  exact exec_answers idle rfl (by rw [runOf, h]) rfl

/-- Settles O37: the one exchange of `resume_spec`, whose reply the response does not print. -/
theorem goVerbRuns : Obligations.GoVerbRuns := by
  unfold Obligations.GoVerbRuns
  intro s idle
  obtain ⟨bits, len, sup, h⟩ := resume_spec s
  exact ⟨bits, len, sup, exec_answers (v := .go) (r := .void) idle rfl (by rw [runOf, h]) rfl⟩

/-- Settles O38: the one sample of `isHalted_spec` chooses the response. -/
theorem statusVerbRuns : Obligations.StatusVerbRuns := by
  unfold Obligations.StatusVerbRuns
  intro s idle
  obtain ⟨f, sup, h⟩ := isHalted_spec s
  refine ⟨f, sup, ?_⟩
  rw [← responseText_status (afterIsHalted s f)]
  exact exec_answers idle rfl (by rw [runOf, h]) rfl

/-- Settles O39: the argument is the number it spells, and the reply word of `readRegister_spec` is printed. -/
theorem readRegVerbRuns : Obligations.ReadRegVerbRuns := by
  unfold Obligations.ReadRegVerbRuns
  intro s reg idle hex
  obtain ⟨bits, len, sup, h⟩ := readRegister_spec (hexNumber reg) s
  refine ⟨bits, len, sup, exec_answers (v := .readReg reg) (r := .word (replyWord bits)) idle rfl ?_ rfl⟩
  simp only [runOf, parseHex_hexText hex, h, registerOpcode]

/-- Settles O40: the arguments are the numbers they spell, and the second one, of 16 bits, is printed. -/
theorem writeRegVerbRuns : Obligations.WriteRegVerbRuns := by
  unfold Obligations.WriteRegVerbRuns
  intro s reg val idle regHex valHex narrow
  obtain ⟨a, b, taken, h⟩ := writeRegister_spec (hexNumber reg) (hexNumber val) s
  refine ⟨a, b, taken, ?_⟩
  rw [← responseText_writeReg _ reg narrow .void]
  refine exec_answers idle (afterExchanges_seq _ s) ?_ ?_
  · simp only [runOf, parseTwo_hexText regHex valHex, h, registerOpcode]
  · simp only [State.afterText, if_pos narrow]

/-- Of two arguments one that is no number raises, whichever it is (R220). -/
theorem parseTwo_not_hexText {reg val : List Byte} (h : ¬ (isHexText reg ∧ isHexText val)) :
    parseTwo reg val = .error .nonHexArgument := by
  by_cases regHex : isHexText reg
  · have valBad : ¬ isHexText val := fun valHex => h ⟨regHex, valHex⟩
    simp only [parseTwo, parseHex_hexText regHex, parseHex_not_hexText valBad]
  · simp only [parseTwo, parseHex_not_hexText regHex]

/-- A caught fault is reported with the next open text, and only that (R265). -/
theorem exec_caught {i : Instr} {s : State} {f : DispatchFault} (idle : s.seq = .idle) (run : runOf i s = s.catchFault f) :
    exec i s = .next { afterResponse s (exceptionText s.excMessage) with texts := s.texts.tail } := by
  have still : s.dropText.seq = .idle := idle
  rw [exec_idle idle, run, State.catchFault, respond_idle still]
  rfl

/-- Settles O42: the argument is looked at before the exchange, and its fault is caught. -/
theorem nonHexArgumentIsCaught : Obligations.NonHexArgumentIsCaught := by
  unfold Obligations.NonHexArgumentIsCaught
  intro s i idle bad
  have raises : runOf i s = s.catchFault .nonHexArgument := by
    rcases bad with ⟨reg, rfl, bad⟩ | ⟨reg, val, rfl, bad⟩
    · simp only [runOf, parseHex_not_hexText bad]
    · simp only [runOf, parseTwo_not_hexText bad]
  exact ⟨s.excMessage, by simp [State.excMessage], exec_caught idle raises⟩

end Sys2Proof.Machine
end

section
/-! Responses (R213, R229, R233): a command that is answered changes the lines, the trace, the host's queue and `LINEBUF`, and
its response ends it; without an exception its text is printable. -/

namespace Sys2Proof.Machine

open Sys2Proof.Safety

/-! ### One response at the end -/

theorem pinEvents_exchanges (xs : List (Nat × List Level)) :
    ∀ e ∈ xs.flatMap fun x => exchangeEvents x.1 x.2, isPinEvent e = true := by
  intro e h
  obtain ⟨x, -, h⟩ := List.mem_flatMap.1 h
  obtain ⟨n, -, h⟩ := List.mem_flatMap.1 h
  have pins : ∀ e ∈ bitStepEvents x.1 (16 - n) (x.2.getD n false), isPinEvent e = true := by
    simp [bitStepEvents, isPinEvent]
  exact pins e h

/-- Exchanges change the lines, the trace and the answers used, nothing else. -/
theorem afterExchanges_eq (xs : List (Nat × List Level)) (s : State) :
    afterExchanges s xs =
      { s with
        pins := (afterExchanges s xs).pins
        trace := (afterExchanges s xs).trace
        answers := (afterExchanges s xs).answers } := by
  induction xs generalizing s with
  | nil => rfl
  | cons x rest ih => exact ih (afterExchange s x.1 x.2)

/-- What an instruction runs before its end: pin events, which change the lines and use up answers. -/
theorem Ran.frame {i : Instr} {s u : State} (h : Ran i s u) :
    ∃ es, (∀ e ∈ es, isPinEvent e = true) ∧
      u = { s with pins := u.pins, trace := s.trace ++ es, answers := u.answers } := by
  cases h with
  | nothing => exact ⟨[], by simp, by simp⟩
  | exchanges who xs taken =>
    refine ⟨_, pinEvents_exchanges xs, ?_⟩
    rw [← afterExchanges_trace]
    exact afterExchanges_eq xs s
  | entered => exact ⟨enterEvents, by decide, rfl⟩
  | stopped who f => exact ⟨stopEvents f, by cases f <;> decide, rfl⟩
  | pulsed => exact ⟨resetEvents, by decide, rfl⟩
  | looked who f => exact ⟨[.sample .frz f], by simp [isPinEvent], rfl⟩

/-- A command that is answered: pin events, then one `tx` of one line, after which `LINEBUF` is empty (R213). -/
theorem exec_answered {i : Instr} {s t : State} (who : answered i = true) (h : exec i s = .next t) :
    ∃ es text pins answers texts, (∀ e ∈ es, isPinEvent e = true) ∧ (∀ b ∈ text, isTerminator b = false) ∧
      t = { s with
        pins := pins
        lineBuf := []
        toHost := s.toHost ++ (text ++ crlf)
        trace := s.trace ++ es ++ [.tx (text ++ crlf)]
        answers := answers
        texts := texts } := by
  obtain ⟨-, u, ran, ended⟩ := exec_cases h
  obtain ⟨es, pins, frame⟩ := ran.frame
  cases ended with
  | result unanswered => simp [unanswered] at who
  | response _ text texts _ oneLine =>
    refine ⟨es, text, u.pins, u.answers, texts, pins, oneLine, ?_⟩
    rw [frame]
    rfl
  | silent empty => simp [empty, answered] at who

/-- Settles O50: a line that is not empty names a command that is answered. -/
theorem oneResponsePerLine : Obligations.OneResponsePerLine := by
  unfold Obligations.OneResponsePerLine
  intro s t line nonempty h
  have who : answered (decodeLine s.cfg line) = true :=
    (decodeLine_answered s.cfg line).resolve_left fun empty => nonempty empty.1
  obtain ⟨idle, -⟩ := exec_cases h
  obtain ⟨es, text, _, _, _, pins, -, rfl⟩ := exec_answered who h
  exact ⟨es, text, rfl, pins, rfl, rfl, idle⟩

/-! ### Printable text -/

theorem hexText_printable {t : List Byte} (h : isHexText t) : ∀ b ∈ t, isPrintable b = true := by
  have digit : ∀ b : Byte, (hexDigitOf b).isSome → isPrintable b = true := by decide +kernel
  exact fun b hb => digit b (h.2 b hb)

theorem ascii_printable {t : String} (h : (ascii t).all isPrintable = true) : ∀ b ∈ ascii t, isPrintable b = true := by
  simpa using h

theorem hex4_printable (v : Word) : ∀ b ∈ hex4 v, isPrintable b = true := by
  have digit : ∀ n < 16, isPrintable (hexDigit n) = true := by decide
  have digitMod (n : Nat) : isPrintable (hexDigit (n % 16)) = true := digit _ (Nat.mod_lt n (by decide))
  simp [hex4, digitMod]

theorem valueText_printable (s : State) (value : Nat) : ∀ b ∈ s.valueText value, isPrintable b = true := by
  unfold State.valueText
  split
  · exact hex4_printable _
  · exact wideValueText_printable s

/-- The response of a verb is printable, when the token it echoes is (R233). -/
theorem responseText_printable (s : State) (v : Verb) (r : Result) (echo : ∀ b ∈ echoed v, isPrintable b = true) :
    ∀ b ∈ s.responseText v r, isPrintable b = true := by
  cases v with
  | reset => exact ascii_printable (by decide)
  | stop => simp only [State.responseText]; split <;> exact ascii_printable (by decide)
  | go => exact ascii_printable (by decide)
  | status => simp only [State.responseText]; split <;> exact ascii_printable (by decide)
  | readReg reg =>
    simp only [State.responseText, List.forall_mem_append]
    exact ⟨⟨⟨ascii_printable (by decide), echo⟩, ascii_printable (by decide)⟩, hex4_printable _⟩
  | writeReg reg value =>
    simp only [State.responseText, List.forall_mem_append]
    exact ⟨⟨⟨ascii_printable (by decide), echo⟩, ascii_printable (by decide)⟩, valueText_printable s value⟩

/-- A plan that is answered without an exception, and with printable text where it echoes a token. -/
def Plan.printable : Plan → Prop
  | .nothing => False
  | .operation .direct _ => False
  | .operation (.verb v) _ => ∀ b ∈ echoed v, isPrintable b = true
  | .unknown => True
  | .fault _ => False

/-- Such a plan ends in a response whose text is printable. -/
theorem Plan.printable.responds {p : Plan} (h : p.printable) (s : State) :
    ∃ u text, p.run s = State.respond u text ∧ ∀ b ∈ text, isPrintable b = true := by
  cases p with
  | nothing => exact h.elim
  | operation who op =>
    cases who with
    | direct => exact h.elim
    | verb v => exact ⟨_, _, rfl, responseText_printable _ v _ h⟩
  | unknown => exact ⟨s, unknownText, rfl, ascii_printable (by decide)⟩
  | fault f => exact h.elim

/-- The commands that raise no fault: those whose arguments, if they have any, are hexadecimal text. -/
theorem printable_planOf {i : Instr}
    (h : (∃ reg, i = .cmdReadReg reg ∧ isHexText reg) ∨
      (∃ reg val, i = .cmdWriteReg reg val ∧ isHexText reg ∧ isHexText val) ∨
      i ∈ [Instr.cmdReset, Instr.cmdStop, Instr.cmdGo, Instr.cmdStatus, Instr.cmdUnknown, Instr.cmdBlank]) :
    (planOf i).printable := by
  rcases h with ⟨reg, rfl, hex⟩ | ⟨reg, val, rfl, regHex, valHex⟩ | h
  · simp only [planOf, parseHex_hexText hex]
    exact hexText_printable hex
  · simp only [planOf, parseTwo_hexText regHex valHex]
    exact hexText_printable regHex
  · simp only [List.mem_cons, List.not_mem_nil, or_false] at h
    rcases h with rfl | rfl | rfl | rfl | rfl | rfl <;> simp [planOf, Plan.printable, echoed]

/-- Settles O51: the last event of the trace is the `tx` of the plan's response, which is printable. -/
theorem responsesArePrintable : Obligations.ResponsesArePrintable := by
  unfold Obligations.ResponsesArePrintable
  intro s t i es text h raisesNone trace
  obtain ⟨-, rfl⟩ := exec_eq_plan h
  obtain ⟨u, response, responds, printable⟩ := (printable_planOf raisesNone).responds s
  rw [responds, State.respond_trace] at trace
  obtain ⟨-, last⟩ := List.append_inj' trace rfl
  have same : response = text := by simpa [crlf] using last
  exact same ▸ printable

end Sys2Proof.Machine
end

section
/-! The port's loop (R210 to R212, R230, R232, R271): when an instruction is accepted, and the steps that run the command of a
line, the instruction of a direct request, the banner and an empty request. -/

namespace Sys2Proof.Machine

open Sys2Proof.Safety

/-- Settles O45: every instruction asks `accept`, which looks at `SEQ` only. -/
theorem acceptedExactlyWhenIdle : Obligations.AcceptedExactlyWhenIdle := by
  unfold Obligations.AcceptedExactlyWhenIdle
  intro i s
  exact ⟨fun idle => ⟨_, exec_idle idle i⟩, fun busy => by rw [exec_eq_accept, accept_busy busy]⟩

/-! ### A line's terminator -/

/-- A terminator and then one step for each event of the line's command. -/
theorem run_terminator {s t : State} {c : Byte} {rest : List Byte} (idle : s.seq = .idle) (opened : s.bannerSent = true)
    (noRequest : s.requests = []) (queue : s.fromHost = c :: rest) (ends : isTerminator c = true)
    (h : exec (decodeLine s.cfg s.lineBuf) { s with fromHost := rest, trace := s.trace ++ [.rx c] } = .next t) :
    Host.Core.run core (t.trace.length - s.trace.length) s = .next t := by
  obtain ⟨m, events, run⟩ := exec_run h
  have steps : t.trace.length - s.trace.length = m + 1 := by
    simp only [events, List.length_append, List.length_singleton]
    omega
  rw [steps]
  exact (run_next m (step_terminator idle opened noRequest queue ends)).trans run

/-- Settles O46: the step of a terminator and the events of its command, or the step of any other byte. -/
theorem stepRunsTheRequestLine : Obligations.StepRunsTheRequestLine := by
  unfold Obligations.StepRunsTheRequestLine
  intro s c rest idle opened noRequest queue
  exact ⟨fun ends =>
      ⟨step_terminator idle opened noRequest queue ends, fun t => run_terminator idle opened noRequest queue ends⟩,
    step_byte idle opened noRequest queue⟩

/-! ### A direct request -/

theorem step_request {s : State} {r : Request} {rest : List Request} {i : Instr} (idle : s.seq = .idle)
    (opened : s.bannerSent = true) (queue : s.requests = r :: rest) (code : decode s.cfg r.code = .ok i) :
    step s = .next (({ s with requests := rest } : State).start i).tick := by
  simp [step, portStep, idleStep, runRequest, idle, opened, queue, code]

/-- An instruction ends idle (R229). -/
theorem exec_ends_idle {i : Instr} {s t : State} (h : exec i s = .next t) : t.seq = .idle := by
  obtain ⟨idle, u, ran, ended⟩ := exec_cases h
  have still : u.seq = .idle := ran.seq_eq.trans idle
  cases ended <;> exact still

/-- After the first tick of what an instruction starts, `m - 1` steps are left of `m`; an instruction without events has
ended before it. -/
theorem Ticks.run_tick {s t : State} {m : Nat} (h : Ticks s m t) (idle : t.seq = .idle) :
    Host.Core.run core (m - 1) s.tick = .next t := by
  cases h with
  | done => simp [State.tick, idle, Host.Core.run]
  | tick _ _ rest => exact rest.run

/-- Settles O47: the request's step takes the first tick with it, so that an instruction without events takes one step
too. -/
theorem stepRunsTheDirectRequest : Obligations.StepRunsTheDirectRequest := by
  unfold Obligations.StepRunsTheDirectRequest
  intro s r rest i idle opened queue code
  have first := step_request idle opened queue code
  refine ⟨first, fun t h => ?_⟩
  have ends := exec_ends_idle h
  obtain ⟨-, rfl⟩ := exec_eq_plan h
  obtain ⟨m, ticks⟩ := (planOf i).ticks { s with requests := rest }
  rw [← start_eq_plan] at ticks
  have events := ticks.length
  rw [start_trace] at events
  have steps : max 1 (((planOf i).run { s with requests := rest }).trace.length - s.trace.length) = m - 1 + 1 := by
    simp only [events]
    omega
  rw [steps]
  exact (run_next _ first).trans (ticks.run_tick ends)

/-! ### The banner, and nothing to read -/

/-- Settles O48: the two cases of an idle port that takes neither a request nor a byte. -/
theorem bannerFirstThenWait : Obligations.BannerFirstThenWait := by
  unfold Obligations.BannerFirstThenWait
  intro s idle
  constructor
  · intro first
    simp [step, portStep, idleStep, idle, first, State.sendBanner, State.send, State.emit, banner, crlf]
  · intro opened noRequest empty
    simp [step, portStep, idleStep, idle, opened, noRequest, empty]

/-! ### The empty request -/

/-- A terminator with an empty buffer leaves its `rx` event only (R211). -/
theorem step_bareTerminator {s : State} {c : Byte} {rest : List Byte} (idle : s.seq = .idle)
    (opened : s.bannerSent = true) (noRequest : s.requests = []) (queue : s.fromHost = c :: rest)
    (ends : isTerminator c = true) (empty : s.lineBuf = []) :
    step s = .next { s with fromHost := rest, trace := s.trace ++ [.rx c] } := by
  rw [step_terminator idle opened noRequest queue ends, empty]
  rfl

theorem txCount_append (xs ys : List Event) : txCount (xs ++ ys) = txCount xs + txCount ys := by
  simp [txCount]

theorem txCount_pins {es : List Event} (pins : ∀ e ∈ es, isPinEvent e = true) : txCount es = 0 := by
  have silent : ∀ e, isPinEvent e = true → sentBy e = [] := by rintro (_ | _ | _ | _ | _) <;> simp [isPinEvent, sentBy]
  simp only [txCount, List.length_eq_zero_iff, List.filter_eq_nil_iff]
  exact fun e he => by simp [silent e (pins e he)]

/-- One request line adds one line to what the trace sends (R213). -/
theorem txCount_answered (before : List Event) (c : Byte) {es : List Event} (pins : ∀ e ∈ es, isPinEvent e = true)
    (text : List Byte) :
    txCount (before ++ [.rx c] ++ es ++ [.tx (text ++ crlf)]) = txCount before + 1 := by
  have received : txCount [.rx c] = 0 := rfl
  have answered : txCount [.tx (text ++ crlf)] = 1 := by simp [txCount, sentBy, crlf]
  simp only [txCount_append, received, txCount_pins pins, answered, Nat.add_zero]

/-- Settles O44: an empty buffer names the empty request; any other line is answered, and its response empties the buffer for
the second terminator. -/
theorem emptyRequestDoesNothing : Obligations.EmptyRequestDoesNothing := by
  unfold Obligations.EmptyRequestDoesNothing
  refine ⟨fun s idle => exec_idle idle .cmdEmpty, fun s c d rest idle opened noRequest cEnds dEnds queue => ⟨?_, ?_⟩⟩
  · intro empty
    have first := step_bareTerminator idle opened noRequest queue cEnds empty
    have second := step_bareTerminator
      (s := { s with fromHost := d :: rest, trace := s.trace ++ [.rx c] }) idle opened noRequest rfl dEnds empty
    refine (run_next 1 first).trans ((run_next 0 second).trans ?_)
    simp [Host.Core.run]
  · intro nonempty
    have who : answered (decodeLine s.cfg s.lineBuf) = true :=
      (decodeLine_answered s.cfg s.lineBuf).resolve_left fun empty => nonempty empty.1
    have h := exec_idle (s := { s with fromHost := d :: rest, trace := s.trace ++ [.rx c] }) idle
      (decodeLine s.cfg s.lineBuf)
    have run := run_terminator idle opened noRequest queue cEnds h
    obtain ⟨es, text, pins, answers, texts, pinEvents, oneLine, state⟩ := exec_answered who h
    rw [state] at run
    have trace : s.trace ++ [.rx c] ++ es ++ [.tx (text ++ crlf)] = s.trace ++ .rx c :: es ++ [.tx (text ++ crlf)] := by
      rw [← List.append_cons]
    exact ⟨_, _, es, text, run, idle, trace, pinEvents, oneLine, txCount_answered s.trace c pinEvents text, rfl, rfl,
      step_bareTerminator idle opened noRequest rfl dEnds rfl⟩

end Sys2Proof.Machine
end

section
/-! The port never stops, and every operation in progress ends (R229, R325): a tick of a busy machine, at whatever position,
leaves fewer ticks to come. -/

namespace Sys2Proof.Machine

open Sys2Proof.Safety

/-! ### A further step -/

/-- A direct operation that waits at an idle port is accepted (R232). -/
theorem step_operation {s : State} {o : Operation} {rest : List Request} (idle : s.seq = .idle)
    (opened : s.bannerSent = true) (queue : s.requests = .op o :: rest) : ∃ t, step s = .next t :=
  ⟨_, step_request (i := o.toInstr) idle opened queue rfl⟩

/-- An idle port past its banner with no request takes the next byte, or waits. -/
theorem step_channel {s : State} (idle : s.seq = .idle) (opened : s.bannerSent = true) (noRequest : s.requests = []) :
    ∃ t, step s = .next t := by
  cases queue : s.fromHost with
  | nil => exact ⟨s, (bannerFirstThenWait s idle).2 opened noRequest queue⟩
  | cons c rest =>
    obtain ⟨terminator, other⟩ := stepRunsTheRequestLine s c rest idle opened noRequest queue
    cases ends : isTerminator c with
    | true => exact ⟨_, (terminator ends).1⟩
    | false => exact ⟨_, other ends⟩

/-- A step answers a next state where every request that waits is an operation. -/
theorem step_next {s : State} (operations : ∀ r ∈ s.requests, ∃ o, r = .op o) : ∃ t, step s = .next t := by
  by_cases idle : s.seq = .idle
  · cases opened : s.bannerSent with
    | false => exact ⟨_, (bannerFirstThenWait s idle).1 opened⟩
    | true =>
      cases queue : s.requests with
      | nil => exact step_channel idle opened queue
      | cons r rest =>
        obtain ⟨o, rfl⟩ := operations r (by simp [queue])
        exact step_operation idle opened queue
  · exact ⟨_, step_busy idle⟩

/-! ### The ticks that are left -/

/-- The place of an exchange in its operation: each exchange is one place after the one before it. -/
def place : Nat → Phase → Nat
  | k, .first => k
  | k, .second => k + 1

theorem place_nextExchange (k : Nat) (phase : Phase) :
    place (nextExchange k phase).1 (nextExchange k phase).2 = place k phase + 1 := by
  cases phase <;> rfl

/-- No exchange of an operation is at this place or after it (R97, R188, R192). -/
def placeLimit : Operation → Nat
  | .transferWord _ => 1
  | .resume => 1
  | .readRegister _ => 1
  | .writeRegister _ _ => 2
  | .readMemory _ n => n
  | .writeMemory _ d => d.length
  | .enterDebugMode => 0
  | .isHalted => 0
  | .stop => 0
  | .reset => 0

theorem place_le (k : Nat) (phase : Phase) : place k phase ≤ k + 1 := by
  cases phase with
  | first => exact Nat.le_succ k
  | second => exact Nat.le_refl (k + 1)

theorem place_lt_limit {cfg : Config} {op : Operation} {k : Nat} {phase : Phase} {w : Nat}
    (h : outgoingAt cfg op k phase = some w) : place k phase < placeLimit op := by
  have within {n v : Nat} {phase : Phase} (h : (if k + 1 < n then some v else none) = some w) : place k phase < n := by
    have := place_le k phase
    split at h
    · omega
    · cases h
  unfold outgoingAt at h
  split at h
  case h_6 | h_7 | h_8 | h_9 => exact within h
  case h_10 => cases h
  all_goals simp [place, placeLimit]

/-- A bound on the ticks to come: 120 for each place after this exchange, seven for each bit step after this one, and the
events of the bit step or of the line script; a response is one tick. Positions that no operation can be at are counted
too. -/
def Seq.ticksLeft : Seq → Nat
  | .idle => 0
  | .responding _ => 1
  | .running _ p =>
    2 + ((lineScript p.op).length - p.event) + 120 * (placeLimit p.op - place p.offset p.phase) + 7 * p.bitpos +
      (7 - p.event)

theorem ticksLeft_running (who : Requester) (p : Position) :
    (Seq.running who p).ticksLeft =
      2 + ((lineScript p.op).length - p.event) + 120 * (placeLimit p.op - place p.offset p.phase) + 7 * p.bitpos +
        (7 - p.event) := rfl

/-- At the end of an operation a response is left, or nothing. -/
theorem complete_ticksLeft (s : State) (who : Requester) (r : Result) : (s.complete who r).seq.ticksLeft ≤ 1 := by
  cases who with
  | direct => exact Nat.zero_le 1
  | verb v => exact Nat.le_refl 1

/-- After an exchange fewer places are left, whatever bit steps of it were. -/
theorem exchangeDone_ticksLeft (s : State) (who : Requester) {p : Position} (acc : Acc) (still : lineScript p.op = []) :
    (s.exchangeDone who p acc).seq.ticksLeft < 2 + 120 * (placeLimit p.op - place p.offset p.phase) := by
  simp only [State.exchangeDone]
  cases word : outgoingAt s.cfg p.op (nextExchange p.offset p.phase).1 (nextExchange p.offset p.phase).2 with
  | none =>
    rw [goTo_none word]
    have ended := complete_ticksLeft s who (resultOf p.op (payload acc) (collect p (payload acc)) [])
    omega
  | some w =>
    rw [goTo_some word]
    have within := place_lt_limit word
    rw [place_nextExchange] at within
    simp only [ticksLeft_running, atExchange, still, place_nextExchange, List.length_nil]
    omega

theorem tickExchange_ticksLeft (s : State) (who : Requester) {p : Position} (still : lineScript p.op = []) :
    (s.tickExchange who p).seq.ticksLeft < (Seq.running who p).ticksLeft := by
  have done (u : State) (acc : Acc) := exchangeDone_ticksLeft u who acc still
  simp only [State.tickExchange]
  split
  · have := done s p.acc
    simp only [ticksLeft_running]
    omega
  · rename_i a rest more
    have length := congrArg List.length more
    simp only [List.length_drop, bitScript, List.length_cons, List.length_nil] at length
    split
    · simp only [ticksLeft_running, still, List.length_nil]
      omega
    · rename_i n bitpos
      rw [List.length_nil] at length
      simp only [ticksLeft_running, bitpos, still, List.length_nil]
      omega
    · have := done (s.perform a) ((s.sampled a).foldl shiftIn p.acc)
      simp only [ticksLeft_running]
      omega

theorem tickLine_ticksLeft (s : State) (who : Requester) (p : Position) :
    (s.tickLine who p).seq.ticksLeft < (Seq.running who p).ticksLeft := by
  have ended (u : State) (r : Result) : (u.complete who r).seq.ticksLeft < (Seq.running who p).ticksLeft := by
    have := complete_ticksLeft u who r
    simp only [ticksLeft_running]
    omega
  simp only [State.tickLine]
  split
  · exact ended _ _
  · exact ended _ _
  · rename_i a b rest more
    have length := congrArg List.length more
    simp only [List.length_drop, List.length_cons] at length
    simp only [ticksLeft_running]
    omega

theorem tick_ticksLeft {s : State} (busy : s.seq ≠ .idle) : s.tick.seq.ticksLeft < s.seq.ticksLeft := by
  cases seq : s.seq with
  | idle => exact absurd seq busy
  | responding text =>
    simp only [State.tick, seq]
    exact Nat.zero_lt_one
  | running who p =>
    simp only [State.tick, seq]
    split
    · rename_i still
      exact tickExchange_ticksLeft s who still
    · exact tickLine_ticksLeft s who p

/-- Some steps of a busy machine, none of which stops, end whatever is in progress. -/
theorem run_to_idle (s : State) : ∃ n t, Host.Core.run core n s = .next t ∧ t.seq = .idle := by
  induction left : s.seq.ticksLeft using Nat.strong_induction_on generalizing s with
  | _ k ih =>
    by_cases idle : s.seq = .idle
    · exact ⟨0, s, rfl, idle⟩
    · obtain ⟨n, t, run, ends⟩ := ih _ (left ▸ tick_ticksLeft idle) s.tick rfl
      exact ⟨n + 1, t, (run_next n (step_busy idle)).trans run, ends⟩

/-- Settles O56: the ticks of a busy machine run out. -/
theorem everyStateTakesAFurtherStep : Obligations.EveryStateTakesAFurtherStep := by
  unfold Obligations.EveryStateTakesAFurtherStep
  exact ⟨fun s => step_next, run_to_idle⟩

end Sys2Proof.Machine
end

section
/-! Least durations (R323): the waits of an exchange, of an operation and of a plan, summed up. -/

namespace Sys2Proof.Machine

open Sys2Proof.Safety

@[simp] theorem duration_nil (cfg : Config) : duration cfg [] = 0 := rfl

@[simp] theorem duration_cons (cfg : Config) (e : Event) (es : List Event) :
    duration cfg (e :: es) = eventDuration cfg e + duration cfg es := by
  simp [duration]

@[simp] theorem duration_append (cfg : Config) (a b : List Event) :
    duration cfg (a ++ b) = duration cfg a + duration cfg b := by
  simp [duration]

/-- Three of the seven events of a bit step are waits of `Q_BIT` (R131). -/
theorem duration_bitStep (cfg : Config) (w p : Nat) (b : Level) : duration cfg (bitStepEvents w p b) = 3 * cfg.qBit := by
  simp only [bitStepEvents, duration_cons, duration_nil, eventDuration, Config.delay]
  omega

/-- Bit steps in a row last three `Q_BIT` each. -/
theorem duration_bitSteps (cfg : Config) (w : Nat) (bits : List Level) (ns : List Nat) :
    duration cfg (ns.flatMap fun n => bitStepEvents w (16 - n) (bits.getD n false)) = 3 * ns.length * cfg.qBit := by
  induction ns with
  | nil => simp
  | cons n ns ih =>
    rw [List.flatMap_cons, duration_append, duration_bitStep, ih, List.length_cons]
    ring

/-- Exchanges in a row last 51 `Q_BIT` each (R133, R323). -/
theorem duration_exchanges (cfg : Config) (xs : List (Nat × List Level)) :
    duration cfg (xs.flatMap fun x => exchangeEvents x.1 x.2) = 51 * xs.length * cfg.qBit := by
  induction xs with
  | nil => simp
  | cons x xs ih =>
    rw [List.flatMap_cons, duration_append, exchangeEvents, duration_bitSteps, List.length_range, ih, List.length_cons]
    ring

theorem duration_enterEvents (cfg : Config) : duration cfg enterEvents = cfg.tDbgAssert + cfg.tDbgRelease := by
  simp [enterEvents, eventDuration, Config.delay]

theorem duration_stopEvents (cfg : Config) (f : Level) :
    duration cfg (stopEvents f) = cfg.tDbgAssert + cfg.tDbgRelease + cfg.tStopSettle := by
  simp [stopEvents, duration_enterEvents, eventDuration, Config.delay]

theorem duration_resetEvents (cfg : Config) : duration cfg resetEvents = cfg.tRstLow + cfg.tRstHigh := by
  simp [resetEvents, eventDuration, Config.delay]

/-- A step of a memory read is two exchanges (R188). -/
theorem length_readExchanges (cfg : Config) (a : Addr) (steps : List (List Level × List Level)) :
    (readExchanges cfg a steps).length = 2 * steps.length := by
  simp [readExchanges, List.length_flatMap, Nat.mul_comm]

/-- A step of a memory write is two exchanges (R192). -/
theorem length_writeExchanges (cfg : Config) (data : List Byte) (steps : List (List Level × List Level)) :
    (writeExchanges cfg data steps).length = 2 * steps.length := by
  simp [writeExchanges, List.length_flatMap, Nat.mul_comm]

/-! ### States -/

/-- The events that lead from `s` to `u` last `n` in all. -/
def Lasted (s u : State) (n : Nat) : Prop := ∃ es, u.trace = s.trace ++ es ∧ duration s.cfg es = n

theorem Lasted.of_trace_eq {s u : State} (same : u.trace = s.trace) : Lasted s u 0 := ⟨[], by simp [same], rfl⟩

/-- A byte string on the channel takes no time of its own. -/
theorem Lasted.respond {s u : State} {n : Nat} (h : Lasted s u n) (text : List Byte) : Lasted s (u.respond text) n := by
  obtain ⟨es, trace, lasts⟩ := h
  exact ⟨es ++ [.tx (text ++ crlf)], by simp [trace], by rw [duration_append, lasts]; rfl⟩

theorem Lasted.answerVerb {s u : State} {n : Nat} (h : Lasted s u n) (v : Verb) (r : Result) :
    Lasted s (u.answerVerb v r) n := by
  have kept : (u.afterText v).trace = u.trace := complete_trace u (.verb v) r
  have drawn : Lasted s (u.afterText v) n := by rwa [Lasted, kept]
  exact drawn.respond _

theorem afterExchanges_lasted (s : State) {xs : List (Nat × List Level)} {n : Nat} (count : xs.length = n) :
    Lasted s (afterExchanges s xs) (51 * n * s.cfg.qBit) :=
  ⟨_, afterExchanges_trace xs s, by rw [duration_exchanges, count]⟩

theorem transferWord_lasted (w : Nat) (s : State) : Lasted s (transferWord w s).2 (51 * s.cfg.qBit) := by
  obtain ⟨bits, -, -, h⟩ := transferWord_spec w s
  rw [h]
  exact afterExchanges_lasted s (xs := [(w, bits)]) rfl

/-- The least duration of an operation: the table of R323. -/
def operationDuration (cfg : Config) : Operation → Nat
  | .transferWord _ => 51 * cfg.qBit
  | .enterDebugMode => cfg.tDbgAssert + cfg.tDbgRelease
  | .isHalted => 0
  | .stop => cfg.tDbgAssert + cfg.tDbgRelease + cfg.tStopSettle
  | .reset => cfg.tRstLow + cfg.tRstHigh
  | .resume => 51 * cfg.qBit
  | .readRegister _ => 51 * cfg.qBit
  | .writeRegister _ _ => 102 * cfg.qBit
  | .readMemory _ n => 102 * (n / 2) * cfg.qBit
  | .writeMemory _ d => 102 * (d.length / 2) * cfg.qBit

/-- Every operation lasts as long as the table says, by the exchanges or the line events of its `_spec` lemma. -/
theorem runOperation_lasted (op : Operation) (s : State) :
    Lasted s (runOperation op s).2 (operationDuration s.cfg op) := by
  have memory (k : Nat) : 51 * (2 * k) * s.cfg.qBit = 102 * k * s.cfg.qBit := by ring
  cases op with
  | transferWord w => exact transferWord_lasted w s
  | enterDebugMode => exact ⟨enterEvents, by rw [runOperation, enterDebugMode_spec], duration_enterEvents _⟩
  | isHalted =>
    obtain ⟨f, -, h⟩ := isHalted_spec s
    exact ⟨[.sample .frz f], by rw [runOperation, h, afterIsHalted], rfl⟩
  | stop =>
    obtain ⟨f, -, h⟩ := stop_spec s
    exact ⟨stopEvents f, by rw [runOperation, h, afterStop], duration_stopEvents _ f⟩
  | reset => exact ⟨resetEvents, by rw [runOperation, resetTarget_spec, afterReset], duration_resetEvents _⟩
  | resume => exact transferWord_lasted _ s
  | readRegister i => exact transferWord_lasted _ s
  | writeRegister i v =>
    obtain ⟨a, b, -, h⟩ := writeRegister_spec i v s
    rw [runOperation, h]
    exact afterExchanges_lasted s (n := 2) rfl
  | readMemory a n =>
    obtain ⟨steps, len, -, h⟩ := readMemory_spec a n s
    rw [runOperation, h, operationDuration, ← memory]
    exact afterExchanges_lasted s (by rw [length_readExchanges, len])
  | writeMemory a d =>
    obtain ⟨steps, len, -, h⟩ := writeMemory_spec a d s
    rw [runOperation, h, operationDuration, ← memory]
    exact afterExchanges_lasted s (by rw [length_writeExchanges, len])

/-- The least duration of a plan is that of its operation, whoever asks for it. -/
def Plan.duration (cfg : Config) : Plan → Nat
  | .nothing => 0
  | .operation _ op => operationDuration cfg op
  | .unknown => 0
  | .fault _ => 0

theorem Plan.run_lasted (p : Plan) (s : State) : Lasted s (p.run s) (p.duration s.cfg) := by
  cases p with
  | nothing => exact .of_trace_eq rfl
  | operation who op =>
    cases who with
    | direct => exact runOperation_lasted op s
    | verb v => exact (runOperation_lasted op s).answerVerb v _
  | unknown => exact (Lasted.of_trace_eq rfl).respond _
  | fault f => exact (Lasted.of_trace_eq (u := s.dropText) rfl).respond _

/-- Every instruction lasts as long as its plan. -/
theorem exec_lasted {i : Instr} {s t : State} (h : exec i s = .next t) : Lasted s t ((planOf i).duration s.cfg) := by
  obtain ⟨-, rfl⟩ := exec_eq_plan h
  exact (planOf i).run_lasted s

/-- An operation asked for directly is its own plan (R232). -/
theorem planOf_toInstr (op : Operation) : planOf op.toInstr = .operation .direct op := by
  cases op <;> rfl

/-- Settles O57: an operation asked for directly lasts what the table says. -/
theorem durationsAreSumsOfDelays : Obligations.DurationsAreSumsOfDelays := by
  unfold Obligations.DurationsAreSumsOfDelays
  intro i s t h
  obtain ⟨es, trace, lasts⟩ := exec_lasted h
  have table (op : Operation) (named : i = op.toInstr) : duration s.cfg es = operationDuration s.cfg op := by
    rw [lasts, named, planOf_toInstr, Plan.duration]
  exact ⟨es, trace, fun ⟨w, named⟩ => table (.transferWord w) named, table .enterDebugMode, table .isHalted, table .stop,
    table .reset, table .resume, fun ⟨n, named⟩ => table (.readRegister n) named,
    fun ⟨n, v, named⟩ => table (.writeRegister n v) named, fun a n => table (.readMemory a n),
    fun a d => table (.writeMemory a d)⟩

end Sys2Proof.Machine
end

section
/-! The state right after power-up (R300 to R304): where every run starts, and the invariant holds there. -/

namespace Sys2Proof.Machine

open Sys2Proof.Safety

/-- A register base of a selector and zeros has zero operand bits (R10). -/
theorem operandBits_selector (selector : BitVec 10) : (selector ++ 0#6) &&& 0x003F#16 = 0#16 := by
  have masked : (0x003F#16 : Word) = 0#10 ++ 0x3F#6 := rfl
  rw [masked, BitVec.and_append]
  simp

/-- The configuration of the build is well formed, whatever its free values are (R10, R11). -/
theorem build_wf : Config.build.wf :=
  ⟨operandBits_selector _, operandBits_selector _, Nat.succ_pos _, Nat.succ_pos _, Nat.succ_pos _, Nat.succ_pos _,
    Nat.succ_pos _, Nat.succ_pos _⟩

/-- Power-up with a well-formed configuration meets the invariant, whatever level of `DOUT` is drawn. -/
theorem inv_powerUp {cfg : Config} (wf : cfg.wf) (dout : Level) : Inv (State.powerUp cfg dout) where
  cfg_wf := wf
  pins_replay := ⟨dout, rfl⟩
  seq_ok := rfl
  line_ok := rfl
  sent_ok := List.suffix_refl _
  quiet := fun _ => ⟨rfl, rfl⟩
  banner_once := fun opened => nomatch opened

/-- Settles O58: a power-cycle and the reset are both a `powerUp`, whose fields are these. -/
theorem powerUpState : Obligations.PowerUpState := by
  unfold Obligations.PowerUpState
  intro s dout
  exact ⟨rfl, rfl, rfl, rfl, rfl, rfl, rfl, rfl, rfl, rfl, rfl, rfl, rfl, rfl, rfl, rfl, rfl⟩

/-- Settles O60: the reset is the power-up of the build. -/
theorem resetMeetsTheInvariant : Obligations.ResetMeetsTheInvariant := inv_powerUp build_wf _

end Sys2Proof.Machine
end
